-- ==== Sys2Proof/Word.lean ====
section
/-! DEFINITION. The two word types of the wire-codec block (spec/00_scope.md R10): `u8` and `u32`, both unsigned.
No operation of the block sign-extends, so neither type is ever read as a signed number. -/

namespace Sys2Proof

/-- `u8` (R10): a stream byte, a tag, a payload byte, a checksum. -/
abbrev Byte := BitVec 8

/-- `u32` (R10, DP_WIDTH of R8): the command word, operands A and B, the scalar result. -/
abbrev Word := BitVec 32

end Sys2Proof
end

