-- ==== Sys2Proof/Config.lean ====
section
/-! DEFINITION. What is fixed for the machine: the constants of spec/00_scope.md R8, the open parameters of R9
(no rule of the block reads one), and the free values the model draws where the spec leaves a value unspecified. -/

namespace Sys2Proof

/-! ## Fixed constants (R8) -/

/-- FRAME_SIZE (R8): a wire frame is 64 bytes. -/
abbrev Config.frameSize : Nat := 64
/-- CS_OFFSET (R8): the checksum byte's offset. CS_RANGE is bytes 0 to 62, the `csOffset` bytes before it. -/
abbrev Config.csOffset : Nat := 63
/-- HDR_TYPE_OFFSET (R8). -/
abbrev Config.hdrTypeOffset : Nat := 0
/-- HDR_LEN_OFFSET (R8). -/
abbrev Config.hdrLenOffset : Nat := 1
/-- PAYLOAD_OFFSET (R8). -/
abbrev Config.payloadOffset : Nat := 2
/-- MAX_PAYLOAD (R8): `csOffset - payloadOffset`. -/
abbrev Config.maxPayload : Nat := 61
/-- CS_WIDTH (R8): the checksum is truncated to 8 bits, the width of `Byte`. -/
abbrev Config.csWidth : Nat := 8
/-- MB_MAX (R8): the packer's lanes. -/
abbrev Config.mbMax : Nat := 4
/-- DP_WIDTH (R8): the bit-field and packer datapath, the width of `Word`. -/
abbrev Config.dpWidth : Nat := 32
/-- BYTE_FIELD_MAX_BIT (R8): the highest bit index of a byte register. -/
abbrev Config.byteFieldMaxBit : Nat := 7

/-! ## Open parameters (R9) -/

/-- The twelve tag parameters of R9, each an 8-bit value no source fixes. -/
structure Config.Tags where
  nextScreen        : Byte
  prevScreen        : Byte
  getTimingConfig   : Byte
  pushTimingConfig  : Byte
  getClockConfig    : Byte
  pushClockConfig   : Byte
  getEncoderConfig  : Byte
  pushEncoderConfig : Byte
  timingConfig      : Byte
  clockConfig       : Byte
  encoderConfig     : Byte
  encoderChangeset  : Byte
deriving DecidableEq, Repr, Inhabited

/-- The host-to-device command tags (R9). -/
def Config.Tags.commands (t : Config.Tags) : List Byte :=
  [t.nextScreen, t.prevScreen, t.getTimingConfig, t.pushTimingConfig,
   t.getClockConfig, t.pushClockConfig, t.getEncoderConfig, t.pushEncoderConfig]

/-- The device-to-host data tags (R9). -/
def Config.Tags.data (t : Config.Tags) : List Byte :=
  [t.timingConfig, t.clockConfig, t.encoderConfig, t.encoderChangeset]

/-- What spec/92_eei_decisions.md D23 says of the tags: each set pairwise distinct, the two sets disjoint. -/
abbrev Config.Tags.Legal (t : Config.Tags) : Prop := (t.commands ++ t.data).Nodup

/-- The tag parameters of R9. A free value: no rule of the block reads a tag (R146, R173). -/
opaque Config.tags : Config.Tags

/-- LATENCY (R9): the time one operation takes, in a unit of the reader's choice. No rule reads it (R250). -/
opaque Config.latency : Nat

/-! ## Free values -/

/-- A byte nothing constrains, one for every draw: what RXBUF holds after the reset input (R230, R32; log entry 3). All
instances of a system draw from this one function (log entry 11). -/
opaque Config.freeByte : Nat → Byte

end Sys2Proof
end

