-- ==== Sys2Proof/Syntax.lean ====
section
/-! DEFINITION. The operations of the block, one constructor for each row of spec/opcode_table.json (R71), with the
operands the command word carries (R70). Data operands (OPA, OPB, PAYIN) are inputs of the machine, not syntax (R72). -/

namespace Sys2Proof

/-- The W field (R70, R100): a byte register (mnemonic suffix `.b`) or a 32-bit grouped register (`.w`). -/
inductive Width where
  | byte
  | grouped
deriving DecidableEq, Repr

/-- S and E (R70): a bit index, 5 bits, 0 to 31. -/
abbrev BitIndex := Fin 32
/-- N (R70): a byte count, 3 bits, 0 to 7 (5 to 7 are ill-formed). -/
abbrev ByteCount := Fin 8
/-- LEN (R70): a payload length, 6 bits, 0 to 63 (62 and 63 are ill-formed). -/
abbrev PayloadLen := Fin 64

/-- The operations (R71). -/
inductive Instr where
  /-- FEEDB (R141): feed one byte of the inbound stream. -/
  | feedb
  /-- BUILD (R171, P = 0): build a frame with no payload. -/
  | build
  /-- BUILD.P (R171, P = 1): build a frame with a payload of `len` bytes. -/
  | buildP (len : PayloadLen)
  /-- EXTRACT (R102): read bits `s` to `e`. -/
  | extract (w : Width) (s e : BitIndex)
  /-- INSERT (R103): write bits `s` to `e`. -/
  | insert (w : Width) (s e : BitIndex)
  /-- ISMOD (R104): compare bits `s` to `e` with those of the reset value. -/
  | ismod (w : Width) (s e : BitIndex)
  /-- COMBINE (R121): pack `n` bytes, little-endian. -/
  | combine (n : ByteCount)
  /-- SPLIT (R122): unpack `n` bytes, little-endian. -/
  | split (n : ByteCount)
deriving DecidableEq, Repr

end Sys2Proof
end

