-- ==== Sys2Proof/WellFormed.lean ====
section
/-! DEFINITION. Which operations have an encoding the decoder accepts: the constraints of spec/opcode_table.json
(R74, R76). The fields' widths are in their types; what is left are the bounds inside those widths. -/

namespace Sys2Proof

/-- A field's two bit indices are in order and inside the register (R101). -/
def Width.fieldOk (w : Width) (s e : BitIndex) : Bool :=
  decide (s.val ≤ e.val) &&
    match w with
    | .byte    => decide (e.val ≤ Config.byteFieldMaxBit)
    | .grouped => true

/-- The constraints of the operation's row of the opcode table. -/
def Instr.wf : Instr → Bool
  | .feedb         => true
  | .build         => true
  | .buildP len    => decide (len.val ≤ Config.maxPayload)
  | .extract w s e => w.fieldOk s e
  | .insert w s e  => w.fieldOk s e
  | .ismod w s e   => w.fieldOk s e
  | .combine n     => decide (n.val ≤ Config.mbMax)
  | .split n       => decide (n.val ≤ Config.mbMax)

/-- The operation has an encoding that the decoder accepts. -/
abbrev Instr.WellFormed (i : Instr) : Prop := i.wf = true

end Sys2Proof
end

