-- ==== Sys2Proof/Decode.lean ====
section
/-! DEFINITION. The command word (spec/30_encoding.md section 2): its fields (R70), the decoder (R74), total on every
32-bit word, and the encoder, written from the same tables (R70, R71, R73). -/

namespace Sys2Proof

/-- The fields of a command word, least significant first (R70). -/
structure Fields where
  op  : Fin 16
  w   : Fin 2
  s   : BitIndex
  e   : BitIndex
  n   : ByteCount
  p   : Fin 2
  len : PayloadLen
  rsv : Fin 128
deriving DecidableEq, Repr

/-- Cut a command word into its fields: OP 3:0, W 4, S 9:5, E 14:10, N 17:15, P 18, LEN 24:19, RSV 31:25 (R70). -/
def Fields.ofWord (cmd : Word) : Fields where
  op  := Fin.ofNat 16 cmd.toNat
  w   := Fin.ofNat 2 (cmd.toNat / 2 ^ 4)
  s   := Fin.ofNat 32 (cmd.toNat / 2 ^ 5)
  e   := Fin.ofNat 32 (cmd.toNat / 2 ^ 10)
  n   := Fin.ofNat 8 (cmd.toNat / 2 ^ 15)
  p   := Fin.ofNat 2 (cmd.toNat / 2 ^ 18)
  len := Fin.ofNat 64 (cmd.toNat / 2 ^ 19)
  rsv := Fin.ofNat 128 (cmd.toNat / 2 ^ 25)

/-- Put a command word together from its fields (R70). -/
def Fields.toWord (f : Fields) : Word :=
  BitVec.ofNat 32
    (f.op.val + f.w.val * 2 ^ 4 + f.s.val * 2 ^ 5 + f.e.val * 2 ^ 10 + f.n.val * 2 ^ 15
      + f.p.val * 2 ^ 18 + f.len.val * 2 ^ 19 + f.rsv.val * 2 ^ 25)

/-- W = 0 is the byte register, W = 1 the grouped register (R70, R100). -/
def Width.ofBit (w : Fin 2) : Width := if w = 0 then .byte else .grouped

/-- The W bit of a width (R70, R100). -/
def Width.toBit : Width → Fin 2
  | .byte    => 0
  | .grouped => 1

/-- What the decoder answers: an operation, or the one refusal it has a name for (R74). -/
inductive Decoded where
  /-- A legal command. -/
  | op (i : Instr)
  /-- ILLEGAL: a reserved or illegal encoding (R76). -/
  | illegal
deriving DecidableEq, Repr

/-- The bit-field arm of the decoder (R74): N, P and LEN zero, the indices in order, and no index above 7 in byte
mode. -/
def decodeField (f : Fields) (mk : Width → BitIndex → BitIndex → Instr) : Decoded :=
  if f.n ≠ 0 ∨ f.p ≠ 0 ∨ f.len ≠ 0 then .illegal
  else if f.e.val < f.s.val then .illegal
  else if f.w = 0 ∧ 7 < f.e.val then .illegal
  else .op (mk (Width.ofBit f.w) f.s f.e)

/-- The packer arm of the decoder (R74): W, S, E, P and LEN zero, at most 4 lanes. -/
def decodeCount (f : Fields) (mk : ByteCount → Instr) : Decoded :=
  if f.w ≠ 0 ∨ f.s ≠ 0 ∨ f.e ≠ 0 ∨ f.p ≠ 0 ∨ f.len ≠ 0 then .illegal
  else if 4 < f.n.val then .illegal
  else .op (mk f.n)

/-- The decoder on a word's fields (R74). -/
def decodeFields (f : Fields) : Decoded :=
  if f.rsv ≠ 0 then .illegal
  else
    match f.op.val with
    | 0x1 =>
      if f.w ≠ 0 ∨ f.s ≠ 0 ∨ f.e ≠ 0 ∨ f.n ≠ 0 ∨ f.p ≠ 0 ∨ f.len ≠ 0 then .illegal
      else .op .feedb
    | 0x2 =>
      if f.w ≠ 0 ∨ f.s ≠ 0 ∨ f.e ≠ 0 ∨ f.n ≠ 0 then .illegal
      else if f.p = 0 then (if f.len ≠ 0 then .illegal else .op .build)
      else if 61 < f.len.val then .illegal
      else .op (.buildP f.len)
    | 0x3 => decodeField f .extract
    | 0x4 => decodeField f .insert
    | 0x5 => decodeField f .ismod
    | 0x6 => decodeCount f .combine
    | 0x7 => decodeCount f .split
    | _   => .illegal

/-- The decoder: a total function of the command word alone (R74, R75). -/
def decode (cmd : Word) : Decoded := decodeFields (Fields.ofWord cmd)

/-- The fields of an operation's command word; every field the operation does not use is zero (R71, R73). -/
def Instr.fields : Instr → Fields
  | .feedb         => ⟨0x1, 0, 0, 0, 0, 0, 0, 0⟩
  | .build         => ⟨0x2, 0, 0, 0, 0, 0, 0, 0⟩
  | .buildP len    => ⟨0x2, 0, 0, 0, 0, 1, len, 0⟩
  | .extract w s e => ⟨0x3, w.toBit, s, e, 0, 0, 0, 0⟩
  | .insert w s e  => ⟨0x4, w.toBit, s, e, 0, 0, 0, 0⟩
  | .ismod w s e   => ⟨0x5, w.toBit, s, e, 0, 0, 0, 0⟩
  | .combine n     => ⟨0x6, 0, 0, 0, n, 0, 0, 0⟩
  | .split n       => ⟨0x7, 0, 0, 0, n, 0, 0, 0⟩

/-- The encoder: the command word of an operation (R70, R71, R73). -/
def encode (i : Instr) : Word := i.fields.toWord

/-- The operation the decoder reads from a row of the opcode table: the row is one command word (R75), the bits above
`nbits` are zero. -/
def decodeTableWord (nbits w : Nat) : Option Instr :=
  match decode (BitVec.ofNat 32 (w % 2 ^ nbits)) with
  | .op i    => some i
  | .illegal => none

end Sys2Proof
end

