-- ==== Sys2Proof/Machine/State.lean ====
section
/-! DEFINITION. The machine's state as plain data, with the reasons a step could stop and the state after reset.
The block's persistent architectural state is RXBUF and RXCNT (spec/10_state.md R20 to R22); the ports of R29 are held
beside it, because a step reads the inputs of one operation and leaves its outputs. -/

namespace Sys2Proof.Machine

/-! ## The ports (R29, R30) -/

/-- The inputs of one operation (R29). -/
structure Inputs where
  /-- CMD: the command word (R70). -/
  cmd   : Word
  /-- OPA: the byte to feed, the tag to build, the register value, the value to split. -/
  opa   : Word
  /-- OPB: the new field value (INSERT) or the reset value (ISMOD). -/
  opb   : Word
  /-- PAYIN[0] to PAYIN[60]: the payload (BUILD.P) or the bytes to combine (COMBINE). -/
  payin : Vector Byte 61
deriving DecidableEq, Repr

/-- STATUS (R200); code 3 is never produced, so it has no constructor. -/
inductive Status where
  | ok
  | illegal
  | badOperand
deriving DecidableEq, Repr

/-- The kind of a receive event (R30). -/
inductive EventKind where
  | none
  | frameOk
  | checksumMismatch
  | lengthOverrange
deriving DecidableEq, Repr

/-- RXEVT, the receive event record (R30). Fields a kind does not define are zero or empty. -/
structure RxEvent where
  kind     : EventKind
  type     : Byte
  length   : Byte
  payload  : List Byte
  computed : Byte
  received : Byte
deriving DecidableEq, Repr

/-- The operand a BadOperand names (R202). -/
inductive OperandName where
  | a
  | b
deriving DecidableEq, Repr

/-- The diagnostic info of a BadOperand: which operand, and its value (R202). No rule reads it. -/
structure BadOperandInfo where
  operand : OperandName
  value   : Word
deriving DecidableEq, Repr

/-- The outputs of one operation (R29), with the diagnostic info of R202, which has no port of its own
(log entry 6). -/
structure Output where
  /-- STATUS (R200). -/
  status   : Status
  /-- RES: the scalar result, 0 where the operation produces none or is rejected. -/
  res      : Word
  /-- RESBYTES: the byte result, 0 to 64 bytes, empty where there is none. -/
  resbytes : List Byte
  /-- RXEVT: the receive event of a FEEDB. -/
  rxevt    : RxEvent
  /-- The info of a BadOperand (R202). -/
  info     : Option BadOperandInfo
deriving DecidableEq, Repr

/-- What the requester does to the block next: it presents one operation on the command interface (R26, R29), or it
asserts the reset input between two operations (R230). -/
inductive Stimulus where
  | operation (inp : Inputs)
  | reset
deriving DecidableEq, Repr

/-! ## The state -/



/-- The state of one instance of the block. -/
structure State where
  /-- RXBUF: 63 bytes; entries below RXCNT are the bytes of the current candidate frame, the others are stale (R21). -/
  rxbuf   : Vector Byte 63
  /-- RXCNT: a 6-bit count, 0 to 63, of the bytes of the current candidate frame received so far (R22). -/
  rxcnt   : Fin 64
  /-- The inputs on the command interface, those of the operation last presented (R29). -/
  port    : Inputs
  /-- The outputs: those of the operation just completed; none while no operation drives them (R32, R240). -/
  out     : Option Output
  /-- The model's own: what the requester will present, in order, the next first (R26, R49; log entry 1). -/
  pending : List Stimulus
  /-- The model's own: how many free bytes have been drawn (log entry 3). -/
  freeIdx : Nat
deriving DecidableEq, Repr

/-- The reasons the machine could stop with a fault. There is none: no error terminates the codec instance, and the
block has no trap, no error state and no lock-up (R206, R208). -/
inductive Fault where
deriving DecidableEq, Repr

/-- The reasons a step could have no meaning. -/
inductive Refusal where
  /-- Raised by an arm of `exec` for an instruction that has no meaning yet; safe. No arm raises it: every row of the
  opcode table has its meaning. -/
  | notModelled (mnemonic : String)
deriving DecidableEq, Repr

/-- The block right after reset (R32): RXCNT is 0 and no output is driven. RXBUF is unspecified and the inputs are the
requester's to drive; both are zero here (log entries 2 and 4). Nothing is pending, and no free byte has been drawn
(log entries 1 and 3). -/
def State.reset : State where
  rxbuf   := Vector.replicate 63 0
  rxcnt   := 0
  port    := { cmd := 0, opa := 0, opb := 0, payin := Vector.replicate 61 0 }
  out     := none
  pending := []
  freeIdx := 0

end Sys2Proof.Machine
end

