-- ==== Sys2Proof/Machine/Flags.lean ====
section
/-! DEFINITION. The block has no flags (spec/10_state.md R27). What an operation reports instead is its STATUS (R200)
and, for FEEDB, its receive event (R30): their codes and the outputs built from them. -/

namespace Sys2Proof.Machine

/-- The STATUS code (R200). -/
def Status.code : Status → BitVec 2
  | .ok         => 0
  | .illegal    => 1
  | .badOperand => 2

/-- The `kind` code of a receive event (R30). -/
def EventKind.code : EventKind → BitVec 2
  | .none             => 0
  | .frameOk          => 1
  | .checksumMismatch => 2
  | .lengthOverrange  => 3

/-! ## Receive events (R30) -/

/-- NONE. -/
def RxEvent.noEvent : RxEvent := ⟨.none, 0, 0, [], 0, 0⟩

/-- FRAME_OK: a decoded frame (R145). -/
def RxEvent.frameOk (type length : Byte) (payload : List Byte) : RxEvent :=
  ⟨.frameOk, type, length, payload, 0, 0⟩

/-- CHECKSUM_MISMATCH: the computed and the received checksum (R142). -/
def RxEvent.checksumMismatch (computed received : Byte) : RxEvent :=
  ⟨.checksumMismatch, 0, 0, [], computed, received⟩

/-- LENGTH_OVERRANGE: the type and the length byte (R143). -/
def RxEvent.lengthOverrange (type length : Byte) : RxEvent :=
  ⟨.lengthOverrange, type, length, [], 0, 0⟩

/-! ## Outputs (R29) -/

/-- A completed operation with a scalar result. -/
def Output.scalar (res : Word) : Output := ⟨.ok, res, [], .noEvent, none⟩

/-- A completed operation with a byte result. -/
def Output.bytes (bs : List Byte) : Output := ⟨.ok, 0, bs, .noEvent, none⟩

/-- A completed FEEDB, which reports its event and no result. -/
def Output.event (ev : RxEvent) : Output := ⟨.ok, 0, [], ev, none⟩

/-- A command the decoder refuses (R201): nothing beyond the status. -/
def Output.illegal : Output := ⟨.illegal, 0, [], .noEvent, none⟩

/-- An operation whose operand is out of range (R202): the status and the diagnostic info. -/
def Output.badOperand (operand : OperandName) (value : Word) : Output :=
  ⟨.badOperand, 0, [], .noEvent, some ⟨operand, value⟩⟩

end Sys2Proof.Machine
end

