-- ==== Sys2Proof/Machine/Ops.lean ====
section
/-! DEFINITION. The operations every meaning is written over: byte-array accesses (spec/00_scope.md R12), the updates
of the state, how an operation ends (R13), and what the reset input does (R230). The block has no memory address space
(R40) and no trap (R208): raising an error is the one shared operation `raiseIllegal` or `raiseBadOperand`. -/

namespace Sys2Proof.Machine

/-! ## Byte arrays (R12) -/

/-- `MemRead(B, off, n)`: the bytes `B[off]` to `B[off+n-1]`. -/
def memRead (b : List Byte) (off n : Nat) : List Byte := (b.drop off).take n

/-- `MemWrite(B, off, bs)`: `B[off+i] <- bs[i]` for every `i < len(bs)`, in that order. -/
def memWrite {size : Nat} (b : Vector Byte size) (off : Nat) : List Byte → Vector Byte size
  | []      => b
  | x :: xs => memWrite (b.setIfInBounds off x) (off + 1) xs

/-! ## Updates of the state -/

/-- Drive the outputs (R29). -/
def State.setOut (s : State) (o : Output) : State := { s with out := some o }

/-- Leave the outputs undriven (R32). -/
def State.undrive (s : State) : State := { s with out := none }

/-- The requester presents an operation's inputs on the command interface (R29). -/
def State.present (s : State) (inp : Inputs) (rest : List Stimulus) : State :=
  { s with port := inp, pending := rest }

/-- Store a byte of the candidate frame at `RXBUF[RXCNT]` and count it (R141). -/
def State.storeByte (s : State) (b : Byte) (h : s.rxcnt.val < 63) : State :=
  { s with rxbuf := s.rxbuf.set s.rxcnt.val b h, rxcnt := ⟨s.rxcnt.val + 1, by omega⟩ }

/-- The candidate frame is complete: the count returns to 0, RXBUF keeps its bytes (R141). -/
def State.endFrame (s : State) : State := { s with rxcnt := 0 }

/-- `MemRead(RXBUF, 0, RXCNT)`: the bytes of the current candidate frame received so far (R23). -/
def State.partialFrame (s : State) : List Byte := memRead s.rxbuf.toList 0 s.rxcnt.val

/-! ## How an operation ends (R13) -/

/-- `complete(status = OK, …)`: the outputs are driven, and the state is as the operation left it. -/
def complete (o : Output) (s : State) : Host.Outcome State Fault Refusal := .next (s.setOut o)

/-- `raise IllegalCommand()` (R201): no effect but the outputs (R203). -/
def raiseIllegal (s : State) : Host.Outcome State Fault Refusal := .next (s.setOut .illegal)

/-- `raise BadOperand(info)` (R202): no effect but the outputs (R203). -/
def raiseBadOperand (operand : OperandName) (value : Word) (s : State) : Host.Outcome State Fault Refusal :=
  .next (s.setOut (.badOperand operand value))

/-! ## Between operations -/

/-- 63 free bytes, drawn from the counter's place on. DESIGN CHOICE: `Config.freeByte` is one function for all instances
of a system, so two instances whose counters are equal draw equal bytes, which the spec leaves open (R32, R222; log
entries 3 and 11). -/
def freeBuffer (idx : Nat) : Vector Byte 63 :=
  ⟨((List.range 63).map fun i => Config.freeByte (idx + i)).toArray, by simp⟩

/-- The reset input (R230): RXCNT is 0, RXBUF is unspecified (free bytes, log entry 3), no output and no event. -/
def State.applyReset (s : State) : State :=
  { s with rxbuf := freeBuffer s.freeIdx, rxcnt := 0, out := none, freeIdx := s.freeIdx + 63 }

/-- The requester withdraws the stimulus at the head of its queue. -/
def State.dequeue (s : State) (rest : List Stimulus) : State := { s with pending := rest }

/-- The requester puts a stimulus at the head of its queue: it is the next one the block sees. -/
def State.enqueueFirst (s : State) (x : Stimulus) : State := { s with pending := x :: s.pending }

end Sys2Proof.Machine
end

