-- ==== Sys2Proof/Machine/Operands.lean ====
section
/-! DEFINITION. The operand forms: byte-valued operands (R202), the low BW bits of a bit-field operand (R100), byte
operands on PAYIN (R29, R75), and the operand ranges outside which a command is ILLEGAL (R201). -/

namespace Sys2Proof.Machine

/-- BW (R100): the operand width in bits. -/
def operandBits : Width → Nat
  | .byte    => 8
  | .grouped => 32

/-- `v[31:8] = 0`: the operand holds a byte (R202). -/
def isByte (v : Word) : Bool := decide (v.toNat / 2 ^ 8 = 0)

/-- `v[7:0]`. -/
def lowByte (v : Word) : Byte := v.setWidth 8

/-- The operand is in range for the width: a byte in byte mode, anything in grouped mode (R102 to R104, R202). -/
def admits : Width → Word → Bool
  | .byte,    v => isByte v
  | .grouped, _ => true

/-- `v[BW-1:0]`, as a number (R102 to R104). -/
def operandValue (w : Width) (v : Word) : Nat := v.toNat % 2 ^ operandBits w

/-- PAYIN[0 .. n): the bytes an operation reads of PAYIN; the others are not read (R29, R75). -/
def payinBytes (p : Inputs) (n : Nat) : List Byte := memRead p.payin.toList 0 n

/-- A bit-field command's indices are legal (R74, R101); otherwise it is ILLEGAL (R201). -/
def legalField (w : Width) (s e : BitIndex) : Bool :=
  decide (s.val ≤ e.val) && decide (e.val < operandBits w)

/-- A packer command's lane count is legal (R120); otherwise it is ILLEGAL (R201). -/
def legalCount (n : ByteCount) : Bool := decide (n.val ≤ 4)

/-- A payload fits the frame (R174); otherwise the command is ILLEGAL (R201). -/
def legalPayload (len : PayloadLen) : Bool := decide (len.val ≤ 61)

end Sys2Proof.Machine
end

