-- ==== Sys2Proof/Machine/BitField.lean ====
section
/-! DEFINITION. The bit-field extractor/inserter (spec/40_bitfield.md): EXTRACT, INSERT, ISMOD. The arithmetic is on
exact numbers, narrowed to 32 bits at the end (R10, R11). -/

namespace Sys2Proof.Machine

/-- `mask(s, e) = 2^(e-s+1) - 1`, exact (R11, R101). -/
def mask (s e : Nat) : Nat := 2 ^ (e - s + 1) - 1

/-- `(v >> s) & mask(s, e)` (R102). -/
def extractField (v s e : Nat) : Nat := (v >>> s) &&& mask s e

/-- `~a` within `bw` bits (R11). -/
def complementWithin (bw a : Nat) : Nat := (2 ^ bw - 1) ^^^ a

/-- `(v & ~(m << s)) | ((x & m) << s)`, the complement within `bw` bits (R103). -/
def insertField (bw v s e x : Nat) : Nat :=
  (v &&& complementWithin bw (mask s e <<< s)) ||| ((x &&& mask s e) <<< s)

/-- EXTRACT (R102). -/
def execExtract (w : Width) (s e : BitIndex) (st : State) : Host.Outcome State Fault Refusal :=
  if legalField w s e then
    if admits w st.port.opa then
      complete (.scalar (BitVec.ofNat 32 (extractField (operandValue w st.port.opa) s.val e.val))) st
    else raiseBadOperand .a st.port.opa st
  else raiseIllegal st

/-- INSERT (R103). OPB is never refused: its bits above the field are dropped. -/
def execInsert (w : Width) (s e : BitIndex) (st : State) : Host.Outcome State Fault Refusal :=
  if legalField w s e then
    if admits w st.port.opa then
      complete (.scalar (BitVec.ofNat 32
        (insertField (operandBits w) (operandValue w st.port.opa) s.val e.val st.port.opb.toNat))) st
    else raiseBadOperand .a st.port.opa st
  else raiseIllegal st

/-- ISMOD (R104): OPA is checked before OPB (R207). -/
def execIsmod (w : Width) (s e : BitIndex) (st : State) : Host.Outcome State Fault Refusal :=
  if legalField w s e then
    if admits w st.port.opa then
      if admits w st.port.opb then
        let fa := extractField (operandValue w st.port.opa) s.val e.val
        let fb := extractField (operandValue w st.port.opb) s.val e.val
        complete (.scalar (if fa ≠ fb then 1 else 0)) st
      else raiseBadOperand .b st.port.opb st
    else raiseBadOperand .a st.port.opa st
  else raiseIllegal st

end Sys2Proof.Machine
end

