-- ==== Sys2Proof/Machine/Frames.lean ====
section
/-! DEFINITION. The wire frame (spec/30_encoding.md section 1, spec/20_memory.md R41): 64 bytes, type at offset 0,
payload length at 1, payload from 2, zero padding, checksum at 63. Shared by the parser and the builder. -/

namespace Sys2Proof.Machine

/-- A frame (R60): exactly FRAME_SIZE bytes. -/
abbrev Frame := Vector Byte 64

/-- The unsigned byte sum of a sequence modulo 2^8: the checksum of R62 on the 63 bytes before the checksum byte. -/
def checksum (bs : List Byte) : Byte := BitVec.ofNat 8 (bs.map BitVec.toNat).sum

/-- `Checksum(F)`: over bytes 0 to 62, whatever the length field says (R62). -/
def frameChecksum (f : Frame) : Byte := checksum (memRead f.toList 0 Config.csOffset)

/-- Checksum-valid (R63). -/
def checksumValid (f : Frame) : Bool := decide (f[63] = frameChecksum f)

/-- Well-formed (R64): checksum-valid, length at most 61, and every padding byte zero. -/
def frameWellFormed (f : Frame) : Bool :=
  checksumValid f && decide (f[1].toNat ≤ Config.maxPayload) &&
    (memRead f.toList (2 + f[1].toNat) (61 - f[1].toNat)).all (· == 0)

/-- The frame with bit `k` of byte `j` flipped (R65). -/
def flipBit (f : Frame) (j : Fin 64) (k : Fin 8) : Frame :=
  f.set j.val (f[j.val] ^^^ (1#8 <<< k.val))

/-- The frame the builder makes of a tag and, where present, a payload (R171, R172). -/
def buildFrame (t : Byte) (payload : Option (List Byte)) : Frame :=
  let f0 : Frame := (Vector.replicate 64 0).set 0 t
  let f1 : Frame :=
    match payload with
    | none    => f0
    | some bs => memWrite (f0.set 1 (BitVec.ofNat 8 bs.length)) 2 bs
  f1.set 63 (frameChecksum f1)

end Sys2Proof.Machine
end

