-- ==== Sys2Proof/Machine/FrameBuilder.lean ====
section
/-! DEFINITION. The frame builder (spec/43_frame_builder.md): BUILD, BUILD.P. It holds no state (R170) and does not
check the tag (R173). -/

namespace Sys2Proof.Machine

/-- BUILD (R171, P = 0): no payload. -/
def execBuild (s : State) : Host.Outcome State Fault Refusal :=
  if isByte s.port.opa then
    complete (.bytes (buildFrame (lowByte s.port.opa) none).toList) s
  else raiseBadOperand .a s.port.opa s

/-- BUILD.P (R171, P = 1): the payload is PAYIN[0 .. LEN). -/
def execBuildP (len : PayloadLen) (s : State) : Host.Outcome State Fault Refusal :=
  if legalPayload len then
    if isByte s.port.opa then
      complete (.bytes (buildFrame (lowByte s.port.opa) (some (payinBytes s.port len.val))).toList) s
    else raiseBadOperand .a s.port.opa s
  else raiseIllegal s

end Sys2Proof.Machine
end

