-- ==== Sys2Proof/Machine/FrameParser.lean ====
section
/-! DEFINITION. The frame parser and checksum validator (spec/42_frame_parser.md): FEEDB. -/

namespace Sys2Proof.Machine

/-- `Validate(c, b)` (R142): the checksum first, then the length (R143). Padding and tag are not tested (R144, R146).
`rxbuf` holds bytes 0 to 62 of the candidate frame, `c` is their checksum and `b` the received byte 63. -/
def validate (rxbuf : Vector Byte 63) (c b : Byte) : RxEvent :=
  if c ≠ b then .checksumMismatch c b
  else if 61 < rxbuf[1].toNat then .lengthOverrange rxbuf[0] rxbuf[1]
  else .frameOk rxbuf[0] rxbuf[1] (memRead rxbuf.toList 2 rxbuf[1].toNat)

/-- One accepted stream byte (R141): it is stored and counted, or it is byte 63 and completes the candidate frame,
whose event it answers; byte 63 is never stored. -/
def receiveByte (b : Byte) (s : State) : State × RxEvent :=
  if h : s.rxcnt.val < 63 then (s.storeByte b h, .noEvent)
  else (s.endFrame, validate s.rxbuf (checksum s.rxbuf.toList) b)

/-- FEEDB (R141). A frame's fate is its event, not an error of the operation (R204). -/
def execFeedb (s : State) : Host.Outcome State Fault Refusal :=
  if isByte s.port.opa then
    complete (.event (receiveByte (lowByte s.port.opa) s).2) (receiveByte (lowByte s.port.opa) s).1
  else raiseBadOperand .a s.port.opa s

end Sys2Proof.Machine
end

