-- ==== Sys2Proof/Machine/MultiByte.lean ====
section
/-! DEFINITION. The little-endian multi-byte register packer (spec/41_multibyte.md): COMBINE, SPLIT. Byte `i` carries
weight 2^(8*i) (R44, R120). -/

namespace Sys2Proof.Machine

/-- The loop of COMBINE (R121): lane `i` and the accumulator, an exact number. -/
def combineFrom (i acc : Nat) : List Byte → Nat
  | []      => acc
  | b :: bs => combineFrom (i + 1) (acc + b.toNat <<< (8 * i)) bs

/-- The little-endian value of a byte sequence (R121). -/
def combineBytes (bs : List Byte) : Nat := combineFrom 0 0 bs

/-- `[(v >> (8*i)) & 0xFF for i = 0, …, n-1]` (R122). -/
def splitBytes (n : Nat) (v : Word) : List Byte :=
  (List.range n).map fun i => BitVec.ofNat 8 ((v.toNat >>> (8 * i)) &&& 0xFF)

/-- COMBINE (R121): no byte value is refused. -/
def execCombine (n : ByteCount) (s : State) : Host.Outcome State Fault Refusal :=
  if legalCount n then
    complete (.scalar (BitVec.ofNat 32 (combineBytes (payinBytes s.port n.val)))) s
  else raiseIllegal s

/-- SPLIT (R122): no value is refused; bytes of OPA at and above byte `n` are dropped. -/
def execSplit (n : ByteCount) (s : State) : Host.Outcome State Fault Refusal :=
  if legalCount n then complete (.bytes (splitBytes n.val s.port.opa)) s
  else raiseIllegal s

end Sys2Proof.Machine
end

