-- ==== Sys2Proof/Machine/Dispatch.lean ====
section
/-! DEFINITION. Which meaning each operation has (spec/30_encoding.md R71). -/

namespace Sys2Proof.Machine

def exec (i : Instr) (s : State) : Host.Outcome State Fault Refusal :=
  match i with
  | .feedb => Sys2Proof.Machine.execFeedb s
  | .build => Sys2Proof.Machine.execBuild s
  | .buildP len => Sys2Proof.Machine.execBuildP len s
  | .extract w b e => Sys2Proof.Machine.execExtract w b e s
  | .insert w b e => Sys2Proof.Machine.execInsert w b e s
  | .ismod w b e => Sys2Proof.Machine.execIsmod w b e s
  | .combine n => Sys2Proof.Machine.execCombine n s
  | .split n => Sys2Proof.Machine.execSplit n s

end Sys2Proof.Machine
end

