-- ==== Sys2Proof/Machine/Step.lean ====
section
/-! DEFINITION. One step of the block: it takes what the requester presents next (spec/10_state.md R26, spec/20_memory.md
R47, R49). The block fetches nothing (R26): the queue `pending` stands for the requester (log entry 1). -/

namespace Sys2Proof.Machine

/-- One step. An operation is presented, decoded and executed as one atomic step (R47), and a command the decoder
refuses is ILLEGAL (R201). The reset input acts between operations (R230). With nothing presented the block is idle
and drives no output (R32, log entry 5). -/
def step (s : State) : Host.Outcome State Fault Refusal :=
  match s.pending with
  | [] => .next s.undrive
  | .reset :: rest => .next (s.dequeue rest).applyReset
  | .operation inp :: rest =>
    match decode inp.cmd with
    | .illegal => raiseIllegal (s.present inp rest)
    | .op i    => exec i (s.present inp rest)

/-- The operation with this command word is the next the requester presents, with the data inputs now on the ports.
The command word is one 32-bit word (R75); the bits above `nbits` are zero. -/
def State.withFetchWord (s : State) (nbits w : Nat) : State :=
  s.enqueueFirst (.operation { s.port with cmd := BitVec.ofNat 32 (w % 2 ^ nbits) })

end Sys2Proof.Machine
end

