-- ==== Sys2Proof/Machine/Assembly.lean ====
section
/-! DEFINITION. The assembler (spec/30_encoding.md R77) and the pseudo-instruction `feed` (R78), on the syntax tree of a
line: each line becomes what the requester presents. The text form is notation only (D34). -/

namespace Sys2Proof.Machine

/-- A line of assembly (R77): operands are numbers on OPA and OPB, byte lists travel on PAYIN. -/
inductive AsmLine where
  | feedb (a : Word)
  | build (t : Word)
  | buildP (t : Word) (bs : List Byte)
  | extract (w : Width) (s e : BitIndex) (a : Word)
  | insert (w : Width) (s e : BitIndex) (a x : Word)
  | ismod (w : Width) (s e : BitIndex) (a r : Word)
  | combine (bs : List Byte)
  | split (n : ByteCount) (a : Word)
  /-- Not a command: assertion of the reset input (R77, R230). -/
  | reset
deriving DecidableEq, Repr

/-- Bytes on PAYIN, the first at PAYIN[0]; what is not used is a don't-care (R29), zero here. -/
def toPayin (bs : List Byte) : Vector Byte 61 := memWrite (Vector.replicate 61 0) 0 bs

/-- An operation with its command word and data inputs. -/
def operationOf (i : Instr) (opa opb : Word) (bs : List Byte) : Stimulus :=
  .operation { cmd := encode i, opa := opa, opb := opb, payin := toPayin bs }

/-- The stimulus of a line (R77); none where its byte list has no encoding: more bytes than PAYIN carries, or a count
the N field cannot hold. -/
def assemble : AsmLine → Option Stimulus
  | .feedb a           => some (operationOf .feedb a 0 [])
  | .build t           => some (operationOf .build t 0 [])
  | .buildP t bs       => if h : bs.length ≤ 61 then some (operationOf (.buildP ⟨bs.length, by omega⟩) t 0 bs) else none
  | .extract w s e a   => some (operationOf (.extract w s e) a 0 [])
  | .insert w s e a x  => some (operationOf (.insert w s e) a x [])
  | .ismod w s e a r   => some (operationOf (.ismod w s e) a r [])
  | .combine bs        => if h : bs.length < 8 then some (operationOf (.combine ⟨bs.length, h⟩) 0 0 bs) else none
  | .split n a         => some (operationOf (.split n) a 0 [])
  | .reset             => some .reset

/-- `feed [b0, …, bk]` (R78): the FEEDBs of the bytes, in order. -/
def feedOps (bs : List Byte) : List Stimulus := bs.map fun b => operationOf .feedb (b.setWidth 32) 0 []

end Sys2Proof.Machine
end

