-- ==== Sys2Proof/Machine/System.lean ====
section
/-! DEFINITION. A system of several instances, one per connection (spec/10_state.md R33, spec/60_exceptions.md R222):
they share nothing, so a step of one is a step of its state alone. That two instances with equal counters draw equal free
bytes at their reset inputs is the model's choice (log entries 3 and 11). -/

namespace Sys2Proof.Machine

/-- The instances of a system (R33). -/
structure System where
  instances : List State
deriving DecidableEq, Repr

/-- One step of instance `k`; where there is no instance `k`, nothing happens. -/
def System.stepOn (k : Nat) (sys : System) : Host.Outcome System Fault Refusal :=
  match sys.instances[k]? with
  | none   => .next sys
  | some s =>
    match step s with
    | .next t    => .next { instances := sys.instances.set k t }
    | .fault r   => .fault r
    | .refused r => .refused r

end Sys2Proof.Machine
end

