-- ==== Sys2Proof/Safety.lean ====
section
/-! DEFINITION. What claims about runs are stated in: the outputs of a run, the inputs that feed a byte stream, the
source's receive algorithm (spec/42_frame_parser.md R140) as the reference the parser is compared with, and what legal
outputs are (R29, R30, R203). A safe run is one in which no step stops; no step of this block does (R206). -/

namespace Sys2Proof.Machine

/-! ## Runs -/

/-- `k` steps with the outputs driven along the way, in order; it stops where a step stops. -/
def observe : Nat → State → Host.Outcome (State × List Output) Fault Refusal
  | 0,     s => .next (s, [])
  | k + 1, s =>
    match step s with
    | .fault r   => .fault r
    | .refused r => .refused r
    | .next t    =>
      match observe k t with
      | .fault r      => .fault r
      | .refused r    => .refused r
      | .next (u, os) => .next (u, t.out.toList ++ os)

/-- The receive events of a run, NONE events omitted (R78, R150). -/
def events (os : List Output) : List RxEvent := (os.map Output.rxevt).filter fun ev => decide (ev.kind ≠ .none)

/-- The stimulus is a FEEDB of this byte: the command word of FEEDB and the byte on OPA. The inputs a FEEDB does not
read are arbitrary (R29). -/
def isFeedOf (b : Byte) : Stimulus → Prop
  | .operation inp => inp.cmd = 0x00000001#32 ∧ inp.opa = b.setWidth 32
  | .reset         => False

/-- The stimuli feed this byte sequence, in order (R78). -/
def Feeds : List Byte → List Stimulus → Prop
  | [],      []      => True
  | b :: bs, x :: xs => isFeedOf b x ∧ Feeds bs xs
  | _,       _       => False

/-- The stream a sequence of operations feeds: the bytes of the FEEDBs the block accepts, in order. A rejected FEEDB
does not count as a stream byte (R203), and no other operation feeds one (R170). -/
def streamBytes (ops : List Inputs) : List Byte :=
  ops.filterMap fun inp => if decode inp.cmd = .op .feedb ∧ inp.opa.toNat < 2 ^ 8 then some (inp.opa.setWidth 8) else none

/-! ## The source's receive algorithm (R140) -/

/-- What the source's `feed` emits: the "log and discard" of a corrupt frame, or a decoded frame. -/
inductive SourceEvent where
  | checksumMismatch
  | frame (type length : Byte) (payload : List Byte)
deriving DecidableEq, Repr

/-- The source's event for one 64-byte candidate (R140). -/
def sourceEvent (f : List Byte) : SourceEvent :=
  if ((memRead f 0 63).map BitVec.toNat).sum % 2 ^ 8 ≠ (f.getD 63 0).toNat then .checksumMismatch
  else .frame (f.getD 0 0) (f.getD 1 0) (memRead f 2 (f.getD 1 0).toNat)

/-- The loop of `feed_src` (R140), at most `fuel` times. -/
def feedSrcLoop : Nat → List Byte → List Byte × List SourceEvent
  | 0,        buf => (buf, [])
  | fuel + 1, buf =>
    if 64 ≤ buf.length then
      let r := feedSrcLoop fuel (buf.drop 64)
      (r.1, sourceEvent (buf.take 64) :: r.2)
    else (buf, [])

/-- `feed_src(buf, c)` (R140). The fuel is the buffer's length, more than the loop can use. -/
def feedSrc (buf c : List Byte) : List Byte × List SourceEvent :=
  feedSrcLoop (buf ++ c).length (buf ++ c)

/-- How an event of the block reads one of the source's (R150): a mismatch as CHECKSUM_MISMATCH, a frame with length at
most 61 as FRAME_OK, and a frame with a larger length, to which the source gives no meaning, as LENGTH_OVERRANGE. -/
def eventReads (src : SourceEvent) (ev : RxEvent) : Prop :=
  match src with
  | .checksumMismatch  => ev.kind = .checksumMismatch
  | .frame t len payload =>
    if len.toNat ≤ 61 then ev = .frameOk t len payload else ev = .lengthOverrange t len

/-! ## The running sum (R24) -/

/-- The sum an implementation may hold instead of recomputing the checksum (R24). -/
def State.runningSum (s : State) : Byte := checksum s.partialFrame

/-- The parser of an implementation that holds the running sum `sum` (R24): the sum is compared with byte 63, and it
starts again at 0. -/
def receiveByteWithSum (b : Byte) (s : State) (sum : Byte) : State × RxEvent × Byte :=
  if h : s.rxcnt.val < 63 then (s.storeByte b h, .noEvent, sum + b)
  else (s.endFrame, validate s.rxbuf sum b, 0)

/-! ## Legal outputs -/

/-- A receive event is as R30 says: fields its kind does not define are zero or empty, and a payload has `length` bytes,
at most 61. -/
def RxEvent.legal (ev : RxEvent) : Bool :=
  match ev.kind with
  | .none             => decide (ev = .noEvent)
  | .frameOk          =>
    decide (ev = .frameOk ev.type ev.length ev.payload ∧ ev.payload.length = ev.length.toNat ∧ ev.length.toNat ≤ 61)
  | .checksumMismatch => decide (ev = .checksumMismatch ev.computed ev.received ∧ ev.computed ≠ ev.received)
  | .lengthOverrange  => decide (ev = .lengthOverrange ev.type ev.length ∧ 61 < ev.length.toNat)

/-- Outputs are as R29 and R203 say: at most 64 result bytes, and a rejected operation has no result and no event. -/
def Output.legal (o : Output) : Bool :=
  o.rxevt.legal && decide (o.resbytes.length ≤ 64) &&
    decide (o.status ≠ .ok → o.res = 0 ∧ o.resbytes = [] ∧ o.rxevt = .noEvent) &&
    decide (o.status ≠ .badOperand → o.info = none)

/-- The invariant: whatever is driven on the outputs is legal. -/
abbrev State.Inv (s : State) : Prop := ∀ o ∈ s.out, o.legal = true

/-! ## What an operation reads, and one operation on given inputs -/

/-- OPA is out of range for the operation (R202). -/
def operandAOutOfRange (i : Instr) (p : Inputs) : Prop :=
  match i with
  | .feedb | .build | .buildP _ => 2 ^ 8 ≤ p.opa.toNat
  | .extract w _ _ | .insert w _ _ | .ismod w _ _ => w = .byte ∧ 2 ^ 8 ≤ p.opa.toNat
  | .combine _ | .split _ => False

/-- OPB is out of range for the operation (R202): only the reset value of a byte-mode ISMOD can be. -/
def operandBOutOfRange (i : Instr) (p : Inputs) : Prop :=
  match i with
  | .ismod w _ _ => w = .byte ∧ 2 ^ 8 ≤ p.opb.toNat
  | .feedb | .build | .buildP _ | .extract _ _ _ | .insert _ _ _ | .combine _ | .split _ => False

/-- The operation builds a frame (R171). -/
def isBuild : Instr → Bool
  | .build | .buildP _ => true
  | .feedb | .extract _ _ _ | .insert _ _ _ | .ismod _ _ _ | .combine _ | .split _ => false

/-- The outputs an operation drives, executed in state `s` with the given data inputs. -/
def outputOf (i : Instr) (s : State) (opa opb : Word) (bs : List Byte) : Option Output :=
  match exec i { s with port := { cmd := encode i, opa := opa, opb := opb, payin := toPayin bs } } with
  | .next t    => t.out
  | .fault _   => none
  | .refused _ => none

/-- RES of a completed operation; none where it did not complete with OK. -/
def resOf (o : Option Output) : Option Word := o.bind fun x => if x.status = .ok then some x.res else none

/-- RESBYTES of a completed operation; none where it did not complete with OK. -/
def resbytesOf (o : Option Output) : Option (List Byte) :=
  o.bind fun x => if x.status = .ok then some x.resbytes else none

/-- The data inputs an operation reads are the same in both (R73); all others may differ. -/
def sameInputsRead (i : Instr) (p q : Inputs) : Prop :=
  match i with
  | .feedb         => p.opa = q.opa
  | .build         => p.opa = q.opa
  | .buildP len    => p.opa = q.opa ∧ ∀ k < len.val, p.payin[k]? = q.payin[k]?
  | .extract _ _ _ => p.opa = q.opa
  | .insert _ _ _  => p.opa = q.opa ∧ p.opb = q.opb
  | .ismod _ _ _   => p.opa = q.opa ∧ p.opb = q.opb
  | .combine n     => ∀ k < n.val, p.payin[k]? = q.payin[k]?
  | .split _       => p.opa = q.opa

end Sys2Proof.Machine
end

