-- ==== Sys2Proof/Certificates/Slice0/Obligations.lean ====
section
/-! DEFINITION. The statements about the machine, one definition each. A statement whose conclusion is
`exec i s = .next { s with … }` says three things at once: the operation completes, what its result is, and that every
field not named is unchanged. That the requester's queue and the free-value counter are unchanged is about fields of
the model's own (log entries 1 and 3), wherever a statement says it. -/

open Sys2Proof Sys2Proof.Machine

/-! ## Encoding -/

/-- The decoder and the encoder agree in both directions (R70, R71, R74): a word decodes to an operation exactly when
the operation is well-formed and the word is its encoding. -/
def Obligations.DecodeIffEncode : Prop :=
  ∀ (cmd : Word) (i : Instr), decode cmd = .op i ↔ i.WellFormed ∧ encode i = cmd

/-- The reserved and illegal encodings are exactly those R76 lists. -/
def Obligations.IllegalEncodings : Prop :=
  ∀ cmd : Word,
    let op  := (cmd.extractLsb' 0 4).toNat
    let w   := (cmd.extractLsb' 4 1).toNat
    let s   := (cmd.extractLsb' 5 5).toNat
    let e   := (cmd.extractLsb' 10 5).toNat
    let n   := (cmd.extractLsb' 15 3).toNat
    let p   := (cmd.extractLsb' 18 1).toNat
    let len := (cmd.extractLsb' 19 6).toNat
    let rsv := (cmd.extractLsb' 25 7).toNat
    decode cmd = .illegal ↔
      op = 0x0 ∨ 0x8 ≤ op ∨ rsv ≠ 0 ∨
      (op = 0x1 ∧ (w ≠ 0 ∨ s ≠ 0 ∨ e ≠ 0 ∨ n ≠ 0 ∨ p ≠ 0 ∨ len ≠ 0)) ∨
      (op = 0x2 ∧ (w ≠ 0 ∨ s ≠ 0 ∨ e ≠ 0 ∨ n ≠ 0)) ∨
      (op = 0x2 ∧ p = 0 ∧ len ≠ 0) ∨
      (op = 0x2 ∧ p = 1 ∧ 61 < len) ∨
      (0x3 ≤ op ∧ op ≤ 0x5 ∧ (n ≠ 0 ∨ p ≠ 0 ∨ len ≠ 0 ∨ e < s ∨ (w = 0 ∧ 7 < e))) ∨
      (0x6 ≤ op ∧ op ≤ 0x7 ∧ (w ≠ 0 ∨ s ≠ 0 ∨ e ≠ 0 ∨ p ≠ 0 ∨ len ≠ 0 ∨ 4 < n))

/-- Words written out from the field table decode to their operation, one for each mnemonic (R79 and vectors V1). -/
def Obligations.SampleWordsDecode : Prop :=
  decode 0x00000001 = .op .feedb ∧
  decode 0x00000002 = .op .build ∧
  decode 0x01EC0002 = .op (.buildP 61) ∧
  decode 0x00001043 = .op (.extract .byte 2 4) ∧
  decode 0x00007FF4 = .op (.insert .grouped 31 31) ∧
  decode 0x00001045 = .op (.ismod .byte 2 4) ∧
  decode 0x00020006 = .op (.combine 4) ∧
  decode 0x00010007 = .op (.split 2)

/-- Each line of the table of R79 assembles to the command word given there. -/
def Obligations.AssemblyExamples : Prop :=
  let cmdOf (l : AsmLine) : Option Word :=
    match assemble l with
    | some (.operation inp) => some inp.cmd
    | _ => none
  cmdOf (.feedb 0x21) = some 0x00000001 ∧
  cmdOf (.build 0x10) = some 0x00000002 ∧
  cmdOf (.buildP 0x21 [1, 2, 3]) = some 0x001C0002 ∧
  cmdOf (.buildP 0x21 []) = some 0x00040002 ∧
  cmdOf (.extract .byte 2 4 0xB6) = some 0x00001043 ∧
  cmdOf (.insert .byte 2 4 0xB6 3) = some 0x00001044 ∧
  cmdOf (.ismod .byte 2 4 0xB6 0xA2) = some 0x00001045 ∧
  (∀ a, cmdOf (.extract .grouped 0 31 a) = some 0x00007C13) ∧
  cmdOf (.combine [0x34, 0x12]) = some 0x00010006 ∧
  cmdOf (.split 2 0x1234) = some 0x00010007 ∧
  (∀ a, cmdOf (.split 4 a) = some 0x00020007)

/-- `feed [b0, …, bk]` expands to the lines `feedb b0`, …, `feedb bk` in that order, and `feed []` to nothing; the
expansion has the command word of FEEDB and the byte on OPA in each (R78). -/
def Obligations.FeedExpands : Prop :=
  (∀ bs : List Byte, (feedOps bs).map some = bs.map fun b => assemble (.feedb (b.setWidth 32))) ∧
  (∀ (bs : List Byte) (k : Nat) (x : Stimulus), (feedOps bs)[k]? = some x →
    ∃ b inp, bs[k]? = some b ∧ x = .operation inp ∧ decode inp.cmd = .op .feedb ∧ inp.opa = b.setWidth 32)

/-! ## The step -/

/-- A presented operation is executed by a step exactly as `exec` says, on the inputs presented, and leaves the rest of
the queue for later (R26, R47). -/
def Obligations.StepRunsDecoded : Prop :=
  ∀ (s : State) (inp : Inputs) (rest : List Stimulus) (i : Instr),
    s.pending = .operation inp :: rest → i.WellFormed → inp.cmd = encode i →
      step s = exec i { s with port := inp, pending := rest }

/-- IllegalCommand (R201): a command the decoder refuses reports STATUS = ILLEGAL, RES = 0, no bytes and no event, and
nothing else changes. -/
def Obligations.IllegalCommandRejected : Prop :=
  ∀ (s : State) (inp : Inputs) (rest : List Stimulus),
    s.pending = .operation inp :: rest → decode inp.cmd = .illegal →
      step s = .next
        { s with port := inp, pending := rest, out := some ⟨.illegal, 0, [], .noEvent, none⟩ }

/-- An operation outside the opcode table's constraints is rejected as ILLEGAL (R201), should `exec` be given one: no
command word decodes to it. -/
def Obligations.IllFormedRejected : Prop :=
  ∀ (i : Instr) (s : State), ¬ i.WellFormed →
    exec i s = .next { s with out := some ⟨.illegal, 0, [], .noEvent, none⟩ }

/-- The word the host places is the next command a step runs, on the data inputs now on the ports (log entry 1). -/
def Obligations.PlacedWordRuns : Prop :=
  ∀ (s : State) (nbits w : Nat) (i : Instr), decodeTableWord nbits w = some i →
    step (s.withFetchWord nbits w) = exec i { s with port := { s.port with cmd := BitVec.ofNat 32 (w % 2 ^ nbits) } }

/-- The reset input (R230) clears RXCNT and drives no output; RXBUF is unspecified, so nothing is said of it. -/
def Obligations.ResetInput : Prop :=
  ∀ (s : State) (rest : List Stimulus), s.pending = .reset :: rest →
    ∃ t, step s = .next t ∧ t.rxcnt = 0 ∧ t.out = none ∧ t.pending = rest

/-- With nothing presented the block is idle: its outputs are undriven and nothing else changes. The model's choice
(log entry 5). -/
def Obligations.IdleStep : Prop :=
  ∀ s : State, s.pending = [] → step s = .next { s with out := none }

/-- After reset RXCNT is 0 and no output is driven (R32). -/
def Obligations.StateAfterReset : Prop :=
  State.reset.rxcnt = 0 ∧ State.reset.out = none

/-- No error terminates the codec instance (R206): a run of any length goes on from every state. -/
def Obligations.RunsNeverStop : Prop :=
  ∀ (k : Nat) (s : State), ∃ t os, observe k s = .next (t, os)

/-- A rejected operation has no effect (R203). -/
def Obligations.RejectedHasNoEffect : Prop :=
  ∀ (s : State) (inp : Inputs) (rest : List Stimulus) (t : State) (o : Output),
    s.pending = .operation inp :: rest → step s = .next t → t.out = some o → o.status ≠ .ok →
      t.rxbuf = s.rxbuf ∧ t.rxcnt = s.rxcnt ∧ o.rxevt = .noEvent ∧ o.res = 0 ∧ o.resbytes = []

/-- BadOperand (R202, R207): a well-formed operation checks OPA, then OPB; it names the first one out of range and
nothing else changes, and where none is it completes with OK. -/
def Obligations.OperandsChecked : Prop :=
  ∀ (i : Instr) (s : State), i.WellFormed →
    (operandAOutOfRange i s.port →
      exec i s = .next { s with out := some ⟨.badOperand, 0, [], .noEvent, some ⟨.a, s.port.opa⟩⟩ }) ∧
    (¬ operandAOutOfRange i s.port → operandBOutOfRange i s.port →
      exec i s = .next { s with out := some ⟨.badOperand, 0, [], .noEvent, some ⟨.b, s.port.opb⟩⟩ }) ∧
    (¬ operandAOutOfRange i s.port → ¬ operandBOutOfRange i s.port →
      ∃ t o, exec i s = .next t ∧ t.out = some o ∧ o.status = .ok)

/-- Exactly one outcome is reported, in the order of R207: ILLEGAL, then BAD_OPERAND, then OK; at the end of a frame the
checksum is tested before the length. -/
def Obligations.OutcomePriority : Prop :=
  ∀ (s : State) (inp : Inputs) (rest : List Stimulus), s.pending = .operation inp :: rest →
    ∃ t o, step s = .next t ∧ t.out = some o ∧
      (decode inp.cmd = .illegal → o.status = .illegal) ∧
      (∀ i, decode inp.cmd = .op i →
        (operandAOutOfRange i inp → o.status = .badOperand ∧ o.info = some ⟨.a, inp.opa⟩) ∧
        (¬ operandAOutOfRange i inp → operandBOutOfRange i inp →
          o.status = .badOperand ∧ o.info = some ⟨.b, inp.opb⟩) ∧
        (¬ operandAOutOfRange i inp → ¬ operandBOutOfRange i inp → o.status = .ok)) ∧
      (decode inp.cmd = .op .feedb → o.status = .ok → s.rxcnt = 63 →
        let c := (s.rxbuf.toList.map BitVec.toNat).sum % 2 ^ 8
        (c ≠ inp.opa.toNat → o.rxevt.kind = .checksumMismatch) ∧
        (c = inp.opa.toNat → 61 < s.rxbuf[1].toNat → o.rxevt.kind = .lengthOverrange) ∧
        (c = inp.opa.toNat → s.rxbuf[1].toNat ≤ 61 → o.rxevt.kind = .frameOk))

/-! ## Frames of effect, and what matters to an operation -/

/-- What no operation changes: the inputs, the requester's queue and the free-value counter (the model's own, log
entries 1 and 3); and RXBUF and RXCNT, but for FEEDB, which changes at most the byte RXBUF[RXCNT] and RXCNT (R20, R48,
R170). That a FEEDB leaves the stale bytes of RXBUF unchanged is the model's reading (log entry 9): R21 calls them
unspecified. -/
def Obligations.ExecFrame : Prop :=
  ∀ (i : Instr) (s t : State), exec i s = .next t →
    t.port = s.port ∧ t.pending = s.pending ∧ t.freeIdx = s.freeIdx ∧
    (∀ k, k ≠ s.rxcnt.val → t.rxbuf[k]? = s.rxbuf[k]?) ∧
    (i ≠ .feedb → t.rxbuf = s.rxbuf ∧ t.rxcnt = s.rxcnt)

/-- A partial frame persists (R148): RXBUF and RXCNT are unchanged across any number of operations none of which is a
FEEDB the block accepts. -/
def Obligations.PartialFramePersists : Prop :=
  ∀ (s : State) (ps : List Inputs) (rest : List Stimulus),
    s.pending = ps.map .operation ++ rest →
    (∀ p ∈ ps, decode p.cmd = .op .feedb → 2 ^ 8 ≤ p.opa.toNat) →
      ∃ t os, observe ps.length s = .next (t, os) ∧ t.pending = rest ∧ t.rxbuf = s.rxbuf ∧ t.rxcnt = s.rxcnt

/-- An operation's outputs depend only on the inputs it reads (R29, R73) and, for FEEDB, on the bytes RXBUF[0 .. RXCNT):
stale entries are never read (R21), and every other operation behaves the same in every state (R231). -/
def Obligations.UnreadInputsDoNotMatter : Prop :=
  ∀ (i : Instr) (s s' : State), sameInputsRead i s.port s'.port →
    (i = .feedb → s.rxcnt = s'.rxcnt ∧ ∀ k < s.rxcnt.val, s.rxbuf[k]? = s'.rxbuf[k]?) →
      ∃ t t', exec i s = .next t ∧ exec i s' = .next t' ∧ t.out = t'.out ∧
        (i = .feedb → t.rxcnt = t'.rxcnt ∧ ∀ k < t.rxcnt.val, t.rxbuf[k]? = t'.rxbuf[k]?)

/-- Operations other than FEEDB commute with every operation (R50): same outputs, same receive state, its stale bytes
included (the model's reading, log entry 9). -/
def Obligations.OperationsCommute : Prop :=
  ∀ (s : State) (p q : Inputs) (rest : List Stimulus), decode p.cmd ≠ .op .feedb →
    ∃ t u op oq,
      observe 2 { s with pending := .operation p :: .operation q :: rest } = .next (t, [op, oq]) ∧
      observe 2 { s with pending := .operation q :: .operation p :: rest } = .next (u, [oq, op]) ∧
      t.rxbuf = u.rxbuf ∧ t.rxcnt = u.rxcnt

/-- Every step leaves legal outputs or none, from every state (R29, R30, R203): fields an event's kind does not define
are zero or empty, a payload has its length's bytes, RESBYTES has at most 64, a rejected operation has no result. -/
def Obligations.StepKeepsOutputsLegal : Prop :=
  ∀ s t : State, step s = .next t → t.Inv

/-- The outputs after reset are legal: none is driven (R32). -/
def Obligations.ResetOutputsLegal : Prop := State.reset.Inv

/-- The codes of STATUS (R200) and of an event's kind (R30); STATUS code 3 is never produced. -/
def Obligations.StatusAndEventCodes : Prop :=
  Status.ok.code = 0 ∧ Status.illegal.code = 1 ∧ Status.badOperand.code = 2 ∧ (∀ st : Status, st.code ≠ 3) ∧
  EventKind.none.code = 0 ∧ EventKind.frameOk.code = 1 ∧ EventKind.checksumMismatch.code = 2 ∧
  EventKind.lengthOverrange.code = 3

/-- Instances share nothing (R33): a step of one is a step of its own state, and every other instance is as before. -/
def Obligations.InstancesIndependent : Prop :=
  ∀ (sys : System) (k : Nat) (s : State), sys.instances[k]? = some s →
    ∃ t sys', step s = .next t ∧ sys.stepOn k = .next sys' ∧ sys'.instances[k]? = some t ∧
      ∀ j, j ≠ k → sys'.instances[j]? = sys.instances[j]?

/-! ## Bit-field operations -/

/-- EXTRACT (R102): bit `k` of RES is bit `s + k` of OPA inside the field, and 0 above it. -/
def Obligations.ExtractReadsField : Prop :=
  ∀ (w : Width) (s e : BitIndex) (st : State),
    (Instr.extract w s e).WellFormed → (w = .byte → st.port.opa.toNat < 2 ^ 8) →
      ∃ r : Word, exec (.extract w s e) st = .next { st with out := some ⟨.ok, r, [], .noEvent, none⟩ } ∧
        ∀ k < 32, r.getLsbD k = (decide (k ≤ e.val - s.val) && st.port.opa.getLsbD (s.val + k))

/-- INSERT (R103): bits `s` to `e` of RES are the low bits of OPB, the others are those of OPA. -/
def Obligations.InsertWritesField : Prop :=
  ∀ (w : Width) (s e : BitIndex) (st : State),
    (Instr.insert w s e).WellFormed → (w = .byte → st.port.opa.toNat < 2 ^ 8) →
      ∃ r : Word, exec (.insert w s e) st = .next { st with out := some ⟨.ok, r, [], .noEvent, none⟩ } ∧
        ∀ k < 32, r.getLsbD k =
          if s.val ≤ k ∧ k ≤ e.val then st.port.opb.getLsbD (k - s.val) else st.port.opa.getLsbD k

/-- ISMOD (R104): RES is 1 where some bit of the field differs, else 0. -/
def Obligations.IsmodComparesField : Prop :=
  ∀ (w : Width) (s e : BitIndex) (st : State),
    (Instr.ismod w s e).WellFormed → (w = .byte → st.port.opa.toNat < 2 ^ 8 ∧ st.port.opb.toNat < 2 ^ 8) →
      ∃ r : Word, exec (.ismod w s e) st = .next { st with out := some ⟨.ok, r, [], .noEvent, none⟩ } ∧
        ((∃ k, s.val ≤ k ∧ k ≤ e.val ∧ st.port.opa.getLsbD k ≠ st.port.opb.getLsbD k) → r = 1) ∧
        ((∀ k, s.val ≤ k → k ≤ e.val → st.port.opa.getLsbD k = st.port.opb.getLsbD k) → r = 0)

/-- The round-trip law of R105, in both width modes. -/
def Obligations.InsertThenExtract : Prop :=
  ∀ (w : Width) (s e : BitIndex) (st : State) (v x y : Word),
    w.fieldOk s e = true → (w = .byte → v.toNat < 2 ^ 8) →
      ∃ r, resOf (outputOf (.insert w s e) st v x []) = some r ∧
        resOf (outputOf (.extract w s e) st r y []) = some (x &&& BitVec.ofNat 32 (2 ^ (e.val - s.val + 1) - 1))

/-- The further laws (a) to (d) of R106, and the bound on every INSERT result. -/
def Obligations.BitFieldLaws : Prop :=
  ∀ (w : Width) (s e : BitIndex) (st : State) (v : Word),
    w.fieldOk s e = true → (w = .byte → v.toNat < 2 ^ 8) →
    let extract (v : Word) (s e : BitIndex) := resOf (outputOf (.extract w s e) st v 0 [])
    let insert (v x : Word) := resOf (outputOf (.insert w s e) st v x [])
    ((extract v s e).bind (insert v) = some v) ∧
    (∀ (x : Word) (s' e' : BitIndex), w.fieldOk s' e' = true → (e.val < s'.val ∨ e'.val < s.val) →
      (insert v x).bind (fun r => extract r s' e') = extract v s' e' ∧ (extract v s' e').isSome) ∧
    (∀ x y : Word, (insert v x).bind (fun r => insert r y) = insert v y ∧ (insert v y).isSome) ∧
    (∀ r : Word, (w = .byte → r.toNat < 2 ^ 8) →
      (resOf (outputOf (.ismod w s e) st v r []) = some 1 ↔ extract v s e ≠ extract r s e)) ∧
    (∀ x r : Word, insert v x = some r → r.toNat < 2 ^ (match w with | .byte => 8 | .grouped => 32))

/-! ## Packer operations -/

/-- COMBINE (R121): RES is the little-endian sum of the first `n` bytes of PAYIN, below 2^(8n). -/
def Obligations.CombinePacksBytes : Prop :=
  ∀ (n : ByteCount) (st : State), n.val ≤ 4 →
    ∃ r : Word, exec (.combine n) st = .next { st with out := some ⟨.ok, r, [], .noEvent, none⟩ } ∧
      r.toNat = ((List.range n.val).map fun i => (st.port.payin.toList.getD i 0).toNat * 2 ^ (8 * i)).sum ∧
      r.toNat < 2 ^ (8 * n.val)

/-- SPLIT (R122): RESBYTES has `n` bytes, byte `i` being bits 8i to 8i+7 of OPA. -/
def Obligations.SplitUnpacksBytes : Prop :=
  ∀ (n : ByteCount) (st : State), n.val ≤ 4 →
    ∃ bs : List Byte, exec (.split n) st = .next { st with out := some ⟨.ok, 0, bs, .noEvent, none⟩ } ∧
      bs.length = n.val ∧ ∀ i < n.val, bs[i]? = some (st.port.opa.extractLsb' (8 * i) 8)

/-- The round-trip laws of R123. -/
def Obligations.PackerRoundTrip : Prop :=
  ∀ (n : ByteCount) (st : State), n.val ≤ 4 →
    (∀ bs : List Byte, bs.length = n.val →
      ∃ r, resOf (outputOf (.combine n) st 0 0 bs) = some r ∧ resbytesOf (outputOf (.split n) st r 0 []) = some bs) ∧
    (∀ v : Word, ∃ bs, resbytesOf (outputOf (.split n) st v 0 []) = some bs ∧
      resOf (outputOf (.combine n) st 0 0 bs) = some (BitVec.ofNat 32 (v.toNat % 2 ^ (8 * n.val))))

/-! ## Frames -/

/-- BUILD and BUILD.P (R171) with the closed form of the checksum (R177): tag, length, payload, zero padding, and the
checksum of those alone. -/
def Obligations.BuildResult : Prop :=
  ∀ st : State, st.port.opa.toNat < 2 ^ 8 →
    (let frame : List Byte := st.port.opa.setWidth 8 :: (List.replicate 62 0 ++ [st.port.opa.setWidth 8])
     exec .build st = .next { st with out := some ⟨.ok, 0, frame, .noEvent, none⟩ }) ∧
    (∀ len : PayloadLen, len.val ≤ 61 →
      let payload := st.port.payin.toList.take len.val
      let sum := st.port.opa.toNat + len.val + (payload.map BitVec.toNat).sum
      let frame : List Byte :=
        st.port.opa.setWidth 8 :: BitVec.ofNat 8 len.val ::
          (payload ++ List.replicate (61 - len.val) 0 ++ [BitVec.ofNat 8 sum])
      exec (.buildP len) st = .next { st with out := some ⟨.ok, 0, frame, .noEvent, none⟩ })

/-- For P = 1 and LEN = 0 the frame equals the P = 0 frame (R172). -/
def Obligations.EmptyPayloadIsNoPayload : Prop :=
  ∀ st : State, exec (.buildP 0) st = exec .build st

/-- Every frame BUILD produces is well-formed (R176). -/
def Obligations.BuiltFramesWellFormed : Prop :=
  ∀ (i : Instr) (s t : State) (o : Output), isBuild i = true → exec i s = .next t → t.out = some o → o.status = .ok →
    ∃ f : Frame, f.toList = o.resbytes ∧ frameWellFormed f = true

/-- Single-bit sensitivity (R65): two frames that differ in exactly one bit are not both checksum-valid. -/
def Obligations.SingleBitSensitivity : Prop :=
  ∀ (f : Frame) (j : Fin 64) (k : Fin 8), checksumValid f = true → checksumValid (flipBit f j k) = false

/-- Limits of the checksum (R66): exchanging two bytes, moving a difference from one byte to another, or flipping bit 7
of two bytes goes undetected, and the frame of 64 zero bytes is valid, of type 0 and length 0. -/
def Obligations.ChecksumLimits : Prop :=
  (∀ (f : Frame) (i j : Fin 63), checksumValid f = true →
    checksumValid ((f.set i.val f[j.val]).set j.val f[i.val]) = true) ∧
  (∀ (f : Frame) (i j : Fin 63) (d : Byte), checksumValid f = true → i ≠ j →
    checksumValid ((f.set i.val (f[i.val] + d)).set j.val (f[j.val] - d)) = true) ∧
  (∀ (f : Frame) (i j : Fin 63), checksumValid f = true → i ≠ j →
    checksumValid (flipBit (flipBit f ⟨i.val, by omega⟩ 7) ⟨j.val, by omega⟩ 7) = true) ∧
  (checksumValid (Vector.replicate 64 0) = true ∧ (Vector.replicate 64 (0 : Byte))[0] = 0 ∧
    (Vector.replicate 64 (0 : Byte))[1] = 0)

/-! ## The parser -/

/-- FEEDB with RXCNT < 63 (R141): the byte is stored at RXBUF[RXCNT] and counted, with no event. That the stale bytes
above it are unchanged is the model's reading (log entry 9): R21 calls them unspecified. The queue and the free-value
counter are the model's own (log entries 1 and 3). -/
def Obligations.FeedbStoresByte : Prop :=
  ∀ s : State, s.port.opa.toNat < 2 ^ 8 → s.rxcnt.val < 63 →
    ∃ t, exec .feedb s = .next t ∧ t.rxcnt.val = s.rxcnt.val + 1 ∧
      (∀ k, t.rxbuf[k]? = if k = s.rxcnt.val then some (s.port.opa.setWidth 8) else s.rxbuf[k]?) ∧
      t.out = some ⟨.ok, 0, [], .noEvent, none⟩ ∧
      t.port = s.port ∧ t.pending = s.pending ∧ t.freeIdx = s.freeIdx

/-- FEEDB with RXCNT = 63 (R141, R142, R143, R145): the candidate is complete, RXCNT is 0 and the event is, in this order,
CHECKSUM_MISMATCH, LENGTH_OVERRANGE or FRAME_OK. RXCNT = 0 is R141's. That RXBUF keeps its 63 bytes, now stale, is the
model's reading (log entry 9): R21 calls them unspecified. The queue and the free-value counter are the model's own (log
entries 1 and 3). -/
def Obligations.FeedbCompletesFrame : Prop :=
  ∀ s : State, s.port.opa.toNat < 2 ^ 8 → s.rxcnt = 63 →
    ∃ ev : RxEvent, exec .feedb s = .next { s with rxcnt := 0, out := some ⟨.ok, 0, [], ev, none⟩ } ∧
      let c := (s.rxbuf.toList.map BitVec.toNat).sum % 2 ^ 8
      (c ≠ s.port.opa.toNat → ev = ⟨.checksumMismatch, 0, 0, [], BitVec.ofNat 8 c, s.port.opa.setWidth 8⟩) ∧
      (c = s.port.opa.toNat → 61 < s.rxbuf[1].toNat → ev = ⟨.lengthOverrange, s.rxbuf[0], s.rxbuf[1], [], 0, 0⟩) ∧
      (c = s.port.opa.toNat → s.rxbuf[1].toNat ≤ 61 →
        ∃ payload : List Byte, ev = ⟨.frameOk, s.rxbuf[0], s.rxbuf[1], payload, 0, 0⟩ ∧
          payload.length = s.rxbuf[1].toNat ∧ ∀ k < s.rxbuf[1].toNat, payload[k]? = s.rxbuf[2 + k]?)

/-- The running sum an implementation may hold (R24): started at the sum of the buffered bytes it stays that sum, and no
result differs from the one by recomputation. -/
def Obligations.RunningSumAgrees : Prop :=
  ∀ (b : Byte) (s : State),
    let r := receiveByteWithSum b s s.runningSum
    (r.1, r.2.1) = receiveByte b s ∧ r.2.2 = r.1.runningSum

/-- The relation to the source's buffer (R23): after a reset and any sequence of operations, whatever lies between the
FEEDBs, with `bs` the stream they feed, RXBUF[0 .. RXCNT) is the source's buffer, RXCNT is the stream's length modulo 64,
RXBUF holds the stream's last RXCNT bytes, and there was one event for every 64 bytes. -/
def Obligations.StreamAlignment : Prop :=
  ∀ (s : State) (ops : List Inputs) (rest : List Stimulus), s.pending = .reset :: (ops.map .operation ++ rest) →
    let bs := streamBytes ops
    ∃ t os, observe (1 + ops.length) s = .next (t, os) ∧ t.pending = rest ∧
      t.partialFrame = (feedSrc [] bs).1 ∧
      t.rxcnt.val = bs.length % 64 ∧
      (∀ k < t.rxcnt.val, t.rxbuf[k]? = bs[64 * (bs.length / 64) + k]?) ∧
      (events os).length = bs.length / 64

/-- The parser refines the source's receive algorithm (R150): from every state, feeding a chunk leaves the source's
buffer in RXBUF[0 .. RXCNT) and produces the source's events, each read as R150 says. -/
def Obligations.FeedRefinesSource : Prop :=
  ∀ (s : State) (c : List Byte) (q rest : List Stimulus), Feeds c q → s.pending = q ++ rest →
    ∃ t os, observe c.length s = .next (t, os) ∧ t.pending = rest ∧
      t.partialFrame = (feedSrc s.partialFrame c).1 ∧
      List.Forall₂ eventReads (feedSrc s.partialFrame c).2 (events os)

/-- Chunk-boundary independence (R151): two cuts of one byte stream, fed from states that hold the same partial frame,
give the same events and the same partial frame, whatever the inputs FEEDB does not read. -/
def Obligations.ChunkBoundaryIndependence : Prop :=
  ∀ (s s' : State) (cs ds : List (List Byte)) (q q' rest rest' : List Stimulus),
    cs.flatten = ds.flatten → Feeds cs.flatten q → Feeds ds.flatten q' →
    s.pending = q ++ rest → s'.pending = q' ++ rest' → s.partialFrame = s'.partialFrame →
      ∃ t os t' os', observe cs.flatten.length s = .next (t, os) ∧ observe ds.flatten.length s' = .next (t', os') ∧
        events os = events os' ∧ t.partialFrame = t'.partialFrame

/-- Frame round-trip (R152): the bytes of a built frame, fed from RXCNT = 0, give 63 NONE events and then FRAME_OK with
the tag, the length and the payload built, and RXCNT is 0 again. -/
def Obligations.BuildThenFeed : Prop :=
  ∀ (b s u : State) (o : Output) (q rest : List Stimulus), b.port.opa.toNat < 2 ^ 8 → s.rxcnt = 0 →
    u.out = some o → Feeds o.resbytes q → s.pending = q ++ rest →
    (exec .build b = .next u →
      ∃ t os last, observe 64 s = .next (t, os ++ [last]) ∧ t.rxcnt = 0 ∧ t.pending = rest ∧
        os.length = 63 ∧ (∀ x ∈ os, x.rxevt = .noEvent) ∧
        last.rxevt = .frameOk (b.port.opa.setWidth 8) 0 []) ∧
    (∀ len : PayloadLen, len.val ≤ 61 → exec (.buildP len) b = .next u →
      ∃ t os last, observe 64 s = .next (t, os ++ [last]) ∧ t.rxcnt = 0 ∧ t.pending = rest ∧
        os.length = 63 ∧ (∀ x ∈ os, x.rxevt = .noEvent) ∧
        last.rxevt =
          .frameOk (b.port.opa.setWidth 8) (BitVec.ofNat 8 len.val) (b.port.payin.toList.take len.val))

/-- Checksum sensitivity at the parser (R153): a built frame with exactly one bit flipped gives CHECKSUM_MISMATCH and no
FRAME_OK, and RXCNT is 0 again. -/
def Obligations.FlippedBitDetected : Prop :=
  ∀ (i : Instr) (b u s : State) (o : Output) (f : Frame) (j : Fin 64) (k : Fin 8) (q rest : List Stimulus),
    isBuild i = true → exec i b = .next u → u.out = some o → f.toList = o.resbytes →
    Feeds (flipBit f j k).toList q → s.rxcnt = 0 → s.pending = q ++ rest →
      ∃ t os ev, observe 64 s = .next (t, os) ∧ t.rxcnt = 0 ∧ t.pending = rest ∧
        events os = [ev] ∧ ev.kind = .checksumMismatch

/-- 64 zero bytes from RXCNT = 0 give FRAME_OK of type 0 and length 0 (R154 (a)). -/
def Obligations.ZeroFrameDelivered : Prop :=
  ∀ (s : State) (q rest : List Stimulus), s.rxcnt = 0 → Feeds (List.replicate 64 0) q → s.pending = q ++ rest →
    ∃ t os, observe 64 s = .next (t, os) ∧ t.rxcnt = 0 ∧ events os = [.frameOk 0 0 []]

/-- A shifted candidate frame is not always rejected (R242): there are two frames whose stream, fed one byte off their
boundary, delivers a FRAME_OK with contents neither of them has. -/
def Obligations.ShiftedFrameCanBeDelivered : Prop :=
  ∃ f g : Frame, frameWellFormed f = true ∧ frameWellFormed g = true ∧ ∃ d, 0 < d ∧ d < 64 ∧
    ∀ (s : State) (q rest : List Stimulus), s.rxcnt = 0 →
      Feeds (((f.toList ++ g.toList).drop d).take 64) q → s.pending = q ++ rest →
        ∃ t os ev, observe 64 s = .next (t, os) ∧ events os = [ev] ∧ ev.kind = .frameOk ∧
          ev.type ≠ f[0] ∧ ev.type ≠ g[0]

/-- The clock-push loopback, the scenario at the end of R178 (the general loopback is
BuildThenFeed): whatever the values of the tag parameters (R9), a frame built with the push tag comes back as FRAME_OK
with that tag, which is not the data tag of a clock snapshot where the tags are as D23 says. -/
def Obligations.ClockPushLoopback : Prop :=
  ∀ (tags : Config.Tags) (b : State) (osc m n : Word),
    ∃ p₁ p₂ p₃ frame,
      resbytesOf (outputOf (.split 4) b osc 0 []) = some p₁ ∧
      resbytesOf (outputOf (.split 4) b m 0 []) = some p₂ ∧
      resbytesOf (outputOf (.split 4) b n 0 []) = some p₃ ∧
      resbytesOf (outputOf (.buildP 12) b (tags.pushClockConfig.setWidth 32) 0 (p₁ ++ p₂ ++ p₃)) = some frame ∧
      (∀ (s : State) (q rest : List Stimulus), s.rxcnt = 0 → Feeds frame q → s.pending = q ++ rest →
        ∃ t os, observe 64 s = .next (t, os) ∧
          events os = [.frameOk tags.pushClockConfig 12 (p₁ ++ p₂ ++ p₃)]) ∧
      (tags.Legal → tags.pushClockConfig ≠ tags.clockConfig)
end

