-- ==== Sys2Proof/Laws/State.lean ====
section
/-! SUPPORT. One lemma per field per update of the state, true by definition: no later proof unfolds a record update. -/

namespace Sys2Proof.Machine

variable (s : State)

@[simp] theorem State.setOut_rxbuf (o : Output) : (s.setOut o).rxbuf = s.rxbuf := rfl
@[simp] theorem State.setOut_rxcnt (o : Output) : (s.setOut o).rxcnt = s.rxcnt := rfl
@[simp] theorem State.setOut_port (o : Output) : (s.setOut o).port = s.port := rfl
@[simp] theorem State.setOut_out (o : Output) : (s.setOut o).out = some o := rfl
@[simp] theorem State.setOut_pending (o : Output) : (s.setOut o).pending = s.pending := rfl
@[simp] theorem State.setOut_freeIdx (o : Output) : (s.setOut o).freeIdx = s.freeIdx := rfl

@[simp] theorem State.undrive_rxbuf : (s.undrive).rxbuf = s.rxbuf := rfl
@[simp] theorem State.undrive_rxcnt : (s.undrive).rxcnt = s.rxcnt := rfl
@[simp] theorem State.undrive_port : (s.undrive).port = s.port := rfl
@[simp] theorem State.undrive_out : (s.undrive).out = none := rfl
@[simp] theorem State.undrive_pending : (s.undrive).pending = s.pending := rfl
@[simp] theorem State.undrive_freeIdx : (s.undrive).freeIdx = s.freeIdx := rfl

@[simp] theorem State.present_rxbuf (inp : Inputs) (rest : List Stimulus) : (s.present inp rest).rxbuf = s.rxbuf := rfl
@[simp] theorem State.present_rxcnt (inp : Inputs) (rest : List Stimulus) : (s.present inp rest).rxcnt = s.rxcnt := rfl
@[simp] theorem State.present_port (inp : Inputs) (rest : List Stimulus) : (s.present inp rest).port = inp := rfl
@[simp] theorem State.present_out (inp : Inputs) (rest : List Stimulus) : (s.present inp rest).out = s.out := rfl
@[simp] theorem State.present_pending (inp : Inputs) (rest : List Stimulus) : (s.present inp rest).pending = rest := rfl
@[simp] theorem State.present_freeIdx (inp : Inputs) (rest : List Stimulus) : (s.present inp rest).freeIdx = s.freeIdx := rfl

@[simp] theorem State.storeByte_rxbuf (b : Byte) (h : s.rxcnt.val < 63) : (s.storeByte b h).rxbuf = s.rxbuf.set s.rxcnt.val b h := rfl
@[simp] theorem State.storeByte_rxcnt (b : Byte) (h : s.rxcnt.val < 63) : (s.storeByte b h).rxcnt = ⟨s.rxcnt.val + 1, by omega⟩ := rfl
@[simp] theorem State.storeByte_port (b : Byte) (h : s.rxcnt.val < 63) : (s.storeByte b h).port = s.port := rfl
@[simp] theorem State.storeByte_out (b : Byte) (h : s.rxcnt.val < 63) : (s.storeByte b h).out = s.out := rfl
@[simp] theorem State.storeByte_pending (b : Byte) (h : s.rxcnt.val < 63) : (s.storeByte b h).pending = s.pending := rfl
@[simp] theorem State.storeByte_freeIdx (b : Byte) (h : s.rxcnt.val < 63) : (s.storeByte b h).freeIdx = s.freeIdx := rfl

@[simp] theorem State.endFrame_rxbuf : (s.endFrame).rxbuf = s.rxbuf := rfl
@[simp] theorem State.endFrame_rxcnt : (s.endFrame).rxcnt = 0 := rfl
@[simp] theorem State.endFrame_port : (s.endFrame).port = s.port := rfl
@[simp] theorem State.endFrame_out : (s.endFrame).out = s.out := rfl
@[simp] theorem State.endFrame_pending : (s.endFrame).pending = s.pending := rfl
@[simp] theorem State.endFrame_freeIdx : (s.endFrame).freeIdx = s.freeIdx := rfl

@[simp] theorem State.applyReset_rxbuf : (s.applyReset).rxbuf = freeBuffer s.freeIdx := rfl
@[simp] theorem State.applyReset_rxcnt : (s.applyReset).rxcnt = 0 := rfl
@[simp] theorem State.applyReset_port : (s.applyReset).port = s.port := rfl
@[simp] theorem State.applyReset_out : (s.applyReset).out = none := rfl
@[simp] theorem State.applyReset_pending : (s.applyReset).pending = s.pending := rfl
@[simp] theorem State.applyReset_freeIdx : (s.applyReset).freeIdx = s.freeIdx + 63 := rfl

@[simp] theorem State.dequeue_rxbuf (rest : List Stimulus) : (s.dequeue rest).rxbuf = s.rxbuf := rfl
@[simp] theorem State.dequeue_rxcnt (rest : List Stimulus) : (s.dequeue rest).rxcnt = s.rxcnt := rfl
@[simp] theorem State.dequeue_port (rest : List Stimulus) : (s.dequeue rest).port = s.port := rfl
@[simp] theorem State.dequeue_out (rest : List Stimulus) : (s.dequeue rest).out = s.out := rfl
@[simp] theorem State.dequeue_pending (rest : List Stimulus) : (s.dequeue rest).pending = rest := rfl
@[simp] theorem State.dequeue_freeIdx (rest : List Stimulus) : (s.dequeue rest).freeIdx = s.freeIdx := rfl

@[simp] theorem State.enqueueFirst_rxbuf (x : Stimulus) : (s.enqueueFirst x).rxbuf = s.rxbuf := rfl
@[simp] theorem State.enqueueFirst_rxcnt (x : Stimulus) : (s.enqueueFirst x).rxcnt = s.rxcnt := rfl
@[simp] theorem State.enqueueFirst_port (x : Stimulus) : (s.enqueueFirst x).port = s.port := rfl
@[simp] theorem State.enqueueFirst_out (x : Stimulus) : (s.enqueueFirst x).out = s.out := rfl
@[simp] theorem State.enqueueFirst_pending (x : Stimulus) : (s.enqueueFirst x).pending = x :: s.pending := rfl
@[simp] theorem State.enqueueFirst_freeIdx (x : Stimulus) : (s.enqueueFirst x).freeIdx = s.freeIdx := rfl

end Sys2Proof.Machine
end

