-- ==== Sys2Proof/Laws/Memory.lean ====
section
/-! SUPPORT. What the byte-array accesses of R12 do: what `memRead` reads, what `memWrite` writes and what it leaves. -/

namespace Sys2Proof.Machine

@[simp] theorem memRead_length (b : List Byte) (off n : Nat) : (memRead b off n).length = min n (b.length - off) := by
  simp [memRead]

theorem memRead_getElem? (b : List Byte) (off n k : Nat) :
    (memRead b off n)[k]? = if k < n then b[off + k]? else none := by
  simp [memRead, List.getElem?_take]

/-- A read from offset 0 is a prefix. -/
theorem memRead_zero (b : List Byte) (n : Nat) : memRead b 0 n = b.take n := by simp [memRead]

/-- `memWrite` writes `bs[k - off]` at `off ≤ k < off + len(bs)` and leaves every other place. -/
theorem memWrite_getElem? {size : Nat} (b : Vector Byte size) (off : Nat) (bs : List Byte) (k : Nat) :
    (memWrite b off bs)[k]? =
      if off ≤ k ∧ k < off + bs.length ∧ k < size then bs[k - off]? else b[k]? := by
  induction bs generalizing b off with
  | nil => simp [memWrite]; omega
  | cons x xs ih =>
    rw [memWrite, ih]
    by_cases hk : off = k
    · subst hk
      by_cases hs : off < size
      · simp [hs]
      · simp [hs]
    · by_cases hlo : off ≤ k
      · obtain ⟨d, rfl⟩ : ∃ d, k = off + 1 + d := ⟨k - (off + 1), by omega⟩
        have h1 : off + 1 + d - off = d + 1 := by omega
        have h2 : off + 1 + d - (off + 1) = d := by omega
        have h3 : off + 1 ≤ off + 1 + d := by omega
        simp only [h1, h2, h3, hlo, true_and, List.getElem?_cons_succ, List.length_cons]
        have h4 : (off + 1 + d < off + 1 + xs.length ∧ off + 1 + d < size) ↔
            (off + 1 + d < off + (xs.length + 1) ∧ off + 1 + d < size) := by omega
        simp only [h4]
        split
        · rfl
        · rw [Vector.getElem?_setIfInBounds_ne hk]
      · have h1 : ¬ (off + 1 ≤ k) := by omega
        simp only [h1, hlo, false_and, if_false]
        rw [Vector.getElem?_setIfInBounds_ne hk]

end Sys2Proof.Machine
end

