-- ==== Sys2Proof/Laws/WellFormed.lean ====
section
/-! SUPPORT. Well-formedness of each operation as arithmetic on its operands (R74, R101, R120, R174). -/

namespace Sys2Proof

@[simp] theorem wellFormed_feedb : Instr.feedb.WellFormed := rfl

@[simp] theorem wellFormed_build : Instr.build.WellFormed := rfl

@[simp] theorem wellFormed_buildP (len : PayloadLen) : (Instr.buildP len).WellFormed ↔ len.val ≤ 61 := by
  simp [Instr.WellFormed, Instr.wf, Config.maxPayload]

@[simp] theorem wellFormed_extract (w : Width) (s e : BitIndex) :
    (Instr.extract w s e).WellFormed ↔ w.fieldOk s e = true := Iff.rfl

@[simp] theorem wellFormed_insert (w : Width) (s e : BitIndex) :
    (Instr.insert w s e).WellFormed ↔ w.fieldOk s e = true := Iff.rfl

@[simp] theorem wellFormed_ismod (w : Width) (s e : BitIndex) :
    (Instr.ismod w s e).WellFormed ↔ w.fieldOk s e = true := Iff.rfl

@[simp] theorem wellFormed_combine (n : ByteCount) : (Instr.combine n).WellFormed ↔ n.val ≤ 4 := by
  simp [Instr.WellFormed, Instr.wf, Config.mbMax]

@[simp] theorem wellFormed_split (n : ByteCount) : (Instr.split n).WellFormed ↔ n.val ≤ 4 := by
  simp [Instr.WellFormed, Instr.wf, Config.mbMax]

/-- A byte register's field: the indices in order and at most 7 (R101). -/
theorem fieldOk_byte (s e : BitIndex) : Width.byte.fieldOk s e = true ↔ s.val ≤ e.val ∧ e.val ≤ 7 := by
  simp [Width.fieldOk, Config.byteFieldMaxBit]

/-- A grouped register's field: the indices in order (R101). -/
theorem fieldOk_grouped (s e : BitIndex) : Width.grouped.fieldOk s e = true ↔ s.val ≤ e.val := by
  simp [Width.fieldOk]

end Sys2Proof
end

