-- ==== Sys2Proof/Laws/Operands.lean ====
section
/-! SUPPORT. What the operand forms say: the machine's operand ranges are those of the opcode table, and a byte-valued
operand's low byte is the operand. -/

namespace Sys2Proof.Machine

@[simp] theorem legalField_eq (w : Width) (s e : BitIndex) : legalField w s e = w.fieldOk s e := by
  rw [Bool.eq_iff_iff]
  cases w <;> simp only [legalField, Width.fieldOk, Bool.and_true, Bool.and_eq_true, decide_eq_true_eq]
  · simp only [operandBits, Config.byteFieldMaxBit]; omega
  · simp only [operandBits]; omega

@[simp] theorem legalCount_iff (n : ByteCount) : legalCount n = true ↔ n.val ≤ 4 := by simp [legalCount]

@[simp] theorem legalPayload_iff (len : PayloadLen) : legalPayload len = true ↔ len.val ≤ 61 := by simp [legalPayload]

theorem fieldOk_iff (w : Width) (s e : BitIndex) :
    w.fieldOk s e = true ↔ s.val ≤ e.val ∧ e.val < operandBits w := by
  rw [← legalField_eq]; simp [legalField]

@[simp] theorem isByte_iff (v : Word) : isByte v = true ↔ v.toNat < 2 ^ 8 := by
  simp only [isByte, decide_eq_true_eq]; omega

@[simp] theorem admits_iff (w : Width) (v : Word) : admits w v = true ↔ (w = .byte → v.toNat < 2 ^ 8) := by
  cases w <;> simp [admits]

theorem lowByte_toNat {v : Word} (h : v.toNat < 2 ^ 8) : (lowByte v).toNat = v.toNat := by
  simp only [lowByte, BitVec.toNat_setWidth]; omega

@[simp] theorem lowByte_setWidth (b : Byte) : lowByte (b.setWidth 32) = b := by
  apply BitVec.eq_of_toNat_eq; have := b.isLt; simp only [lowByte, BitVec.toNat_setWidth]; omega

theorem setWidth_lt (b : Byte) : (b.setWidth 32 : Word).toNat < 2 ^ 8 := by
  have := b.isLt; simp only [BitVec.toNat_setWidth]; omega

/-- On an operand that is in range, the low BW bits are the whole operand. -/
theorem operandValue_eq {w : Width} {v : Word} (h : w = .byte → v.toNat < 2 ^ 8) : operandValue w v = v.toNat := by
  cases w with
  | byte => exact Nat.mod_eq_of_lt (h rfl)
  | grouped => exact Nat.mod_eq_of_lt v.isLt

theorem operandValue_lt (w : Width) (v : Word) : operandValue w v < 2 ^ operandBits w :=
  Nat.mod_lt _ (Nat.two_pow_pos _)

theorem operandBits_le (w : Width) : operandBits w ≤ 32 := by cases w <;> decide

end Sys2Proof.Machine
end

