-- ==== Sys2Proof/Laws/BitField.lean ====
section
/-! SUPPORT. The bits of an extracted and of an inserted field (R102, R103), and their bounds. -/

namespace Sys2Proof.Machine

@[simp] theorem mask_testBit (s e k : Nat) : (mask s e).testBit k = decide (k < e - s + 1) := by
  simp [mask, Nat.testBit_two_pow_sub_one]

theorem extractField_testBit (v s e k : Nat) :
    (extractField v s e).testBit k = (decide (k < e - s + 1) && v.testBit (s + k)) := by
  simp [extractField, Bool.and_comm]

theorem extractField_lt (v s e : Nat) : extractField v s e < 2 ^ (e - s + 1) := by
  refine lt_of_le_of_lt Nat.and_le_right ?_
  have := Nat.two_pow_pos (e - s + 1)
  unfold mask; omega

@[simp] theorem complementWithin_testBit (bw a k : Nat) :
    (complementWithin bw a).testBit k = (decide (k < bw) ^^ a.testBit k) := by
  simp [complementWithin, Nat.testBit_two_pow_sub_one]

/-- Inside the field the bits are those of `x`, outside they are those of `v`. -/
theorem insertField_testBit {bw v s e : Nat} (x k : Nat) (hv : v < 2 ^ bw) (hse : s ≤ e) (he : e < bw) :
    (insertField bw v s e x).testBit k =
      if s ≤ k ∧ k ≤ e then x.testBit (k - s) else v.testBit k := by
  simp only [insertField, Nat.testBit_or, Nat.testBit_and, complementWithin_testBit, Nat.testBit_shiftLeft,
    mask_testBit]
  by_cases hk : k < bw
  · by_cases h1 : s ≤ k
    · by_cases h2 : k ≤ e
      · have : k - s < e - s + 1 := by omega
        simp [hk, h1, h2, this]
      · have : ¬ k - s < e - s + 1 := by omega
        simp [hk, h2, this]
    · simp [hk, h1]
  · have hz : v.testBit k = false := Nat.testBit_lt_two_pow (lt_of_lt_of_le hv (Nat.pow_le_pow_right (by decide) (by omega)))
    have h2 : ¬ k - s < e - s + 1 := by omega
    have h3 : ¬ k ≤ e := by omega
    simp [hz, h2, h3]

theorem insertField_lt {bw v s e : Nat} (x : Nat) (hv : v < 2 ^ bw) (hse : s ≤ e) (he : e < bw) :
    insertField bw v s e x < 2 ^ bw := by
  apply Nat.lt_pow_two_of_testBit
  intro k hk
  rw [insertField_testBit x k hv hse he, if_neg (by omega)]
  exact Nat.testBit_lt_two_pow (lt_of_lt_of_le hv (Nat.pow_le_pow_right (by decide) hk))

end Sys2Proof.Machine
end

