-- ==== Sys2Proof/Laws/Encoding.lean ====
section
/-! SUPPORT. Cutting a command word into fields and putting one together are inverse to each other (R70). -/

namespace Sys2Proof

@[simp] theorem Fields.ofWord_toWord (f : Fields) : Fields.ofWord f.toWord = f := by
  obtain ⟨⟨op, _⟩, ⟨w, _⟩, ⟨s, _⟩, ⟨e, _⟩, ⟨n, _⟩, ⟨p, _⟩, ⟨len, _⟩, ⟨rsv, _⟩⟩ := f
  simp only [Fields.ofWord, Fields.toWord, BitVec.toNat_ofNat, Fields.mk.injEq, Fin.ext_iff, Fin.val_ofNat]
  refine ⟨?_, ?_, ?_, ?_, ?_, ?_, ?_, ?_⟩ <;> omega

@[simp] theorem Fields.toWord_ofWord (cmd : Word) : (Fields.ofWord cmd).toWord = cmd := by
  apply BitVec.eq_of_toNat_eq
  have := cmd.isLt
  simp only [Fields.ofWord, Fields.toWord, BitVec.toNat_ofNat, Fin.val_ofNat]
  omega

theorem Fields.toWord_inj {f g : Fields} (h : f.toWord = g.toWord) : f = g := by
  rw [← Fields.ofWord_toWord f, h, Fields.ofWord_toWord]

/-- The decoder on an encoding reads the operation's own fields. -/
theorem decode_encode_fields (i : Instr) : decode (encode i) = decodeFields i.fields := by
  simp [decode, encode]

@[simp] theorem Width.ofBit_toBit (w : Width) : Width.ofBit w.toBit = w := by cases w <;> rfl

@[simp] theorem Width.toBit_ofBit (b : Fin 2) : (Width.ofBit b).toBit = b := by revert b; decide

/-- The bit-field arm of the decoder accepts exactly the legal fields with N, P and LEN zero (R74). -/
theorem decodeField_iff (f : Fields) (mk : Width → BitIndex → BitIndex → Instr) (i : Instr) :
    decodeField f mk = .op i ↔
      f.n = 0 ∧ f.p = 0 ∧ f.len = 0 ∧ (Width.ofBit f.w).fieldOk f.s f.e = true ∧ i = mk (Width.ofBit f.w) f.s f.e := by
  have hw : f.w = 0 ∨ f.w = 1 := by omega
  have hok : (Width.ofBit f.w).fieldOk f.s f.e = true ↔ ¬ f.e.val < f.s.val ∧ ¬ (f.w = 0 ∧ 7 < f.e.val) := by
    rcases hw with h | h <;> rw [h]
    · show Width.byte.fieldOk _ _ = true ↔ _
      rw [fieldOk_byte]; simp only [true_and]; omega
    · show Width.grouped.fieldOk _ _ = true ↔ _
      rw [fieldOk_grouped]; simp only [Fin.one_eq_zero_iff]; omega
  rw [hok]
  unfold decodeField
  split_ifs with h1 h2 h3
  · simp only [false_iff]; tauto
  · simp only [false_iff]; tauto
  · simp only [false_iff]; tauto
  · simp only [Decoded.op.injEq]; push Not at h1; tauto

/-- The packer arm of the decoder accepts exactly up to 4 lanes with W, S, E, P and LEN zero (R74). -/
theorem decodeCount_iff (f : Fields) (mk : ByteCount → Instr) (i : Instr) :
    decodeCount f mk = .op i ↔
      f.w = 0 ∧ f.s = 0 ∧ f.e = 0 ∧ f.p = 0 ∧ f.len = 0 ∧ f.n.val ≤ 4 ∧ i = mk f.n := by
  unfold decodeCount
  split_ifs with h1 h2
  · simp only [false_iff]; tauto
  · simp only [false_iff]; omega
  · simp only [Decoded.op.injEq]
    have h3 : f.n.val ≤ 4 := by omega
    push Not at h1; tauto

end Sys2Proof
end

