-- ==== Sys2Proof/Laws/Frames.lean ====
section
/-! SUPPORT. The checksum as a sum, the layout of a built frame, and what the parser does with one byte. -/

namespace Sys2Proof.Machine

theorem checksum_toNat (bs : List Byte) : (checksum bs).toNat = (bs.map BitVec.toNat).sum % 2 ^ 8 := by
  simp [checksum]

@[simp] theorem checksum_nil : checksum [] = 0 := rfl

theorem checksum_append (xs ys : List Byte) : checksum (xs ++ ys) = checksum xs + checksum ys := by
  simp [checksum, BitVec.ofNat_add]

@[simp] theorem checksum_singleton (b : Byte) : checksum [b] = b := by simp [checksum]

theorem checksum_cons (b : Byte) (bs : List Byte) : checksum (b :: bs) = b + checksum bs := by
  rw [← List.singleton_append, checksum_append, checksum_singleton]

@[simp] theorem checksum_zeros (n : Nat) : checksum (List.replicate n 0#8) = 0#8 := by
  induction n with
  | zero => rfl
  | succ n ih => rw [List.replicate_succ, checksum_cons, ih]; rfl

/-- The bytes of a frame built with a payload that fits (R171, R177). -/
theorem buildFrame_some_toList (t : Byte) (bs : List Byte) (h : bs.length ≤ 61) :
    (buildFrame t (some bs)).toList =
      t :: BitVec.ofNat 8 bs.length :: (bs ++ List.replicate (61 - bs.length) 0 ++
        [t + BitVec.ofNat 8 bs.length + checksum bs]) := by
  let g := memWrite ((((Vector.replicate 64 0).set 0 t) : Frame).set 1 (BitVec.ofNat 8 bs.length)) 2 bs
  let l : List Byte := t :: BitVec.ofNat 8 bs.length :: (bs ++ List.replicate (61 - bs.length) 0)
  have hg : ∀ k < 63, g[k]? = l[k]? := by
    intro k hk
    simp only [g, l]
    rw [memWrite_getElem?]
    match k with
    | 0 => simp
    | 1 => simp
    | k + 2 =>
      simp only [List.getElem?_cons_succ]
      split
      · rename_i h2
        rw [List.getElem?_append_left (by omega)]; simp
      · rw [List.getElem?_append_right (by omega), List.getElem?_replicate, if_pos (by omega)]
        rw [Vector.getElem?_set_ne _ (by omega), Vector.getElem?_set_ne _ (by omega)]
        rw [Vector.getElem?_replicate, if_pos (by omega)]
  have hl : l.length = 63 := by simp [l]; omega
  have hread : memRead g.toList 0 63 = l := by
    apply List.ext_getElem?
    intro k
    rw [memRead_getElem?]
    split
    · rename_i hk; rw [Nat.zero_add, Vector.getElem?_toList, hg k hk]
    · rw [List.getElem?_eq_none (by omega)]
  have hcs : frameChecksum g = t + BitVec.ofNat 8 bs.length + checksum bs := by
    rw [frameChecksum, hread]
    simp [l, checksum_cons, checksum_append, BitVec.add_assoc]
  change (g.set 63 (frameChecksum g)).toList = _
  rw [hcs]
  have hfin : t :: BitVec.ofNat 8 bs.length :: (bs ++ List.replicate (61 - bs.length) 0 ++
        [t + BitVec.ofNat 8 bs.length + checksum bs]) = l ++ [t + BitVec.ofNat 8 bs.length + checksum bs] := by
    simp [l]
  rw [hfin]
  apply List.ext_getElem?
  intro k
  rw [Vector.getElem?_toList, Vector.getElem?_set]
  by_cases hk : k < 63
  · rw [if_neg (by omega), hg k hk, List.getElem?_append_left (by omega)]
  · rw [List.getElem?_append_right (by omega), hl]
    by_cases h63 : 63 = k
    · subst h63; simp
    · rw [if_neg h63, Vector.getElem?_eq_none (by omega), List.getElem?_eq_none (by simp; omega)]

/-- A frame without a payload is one with an empty payload (R172). -/
theorem buildFrame_none_eq (t : Byte) : buildFrame t none = buildFrame t (some []) := by
  have h : ((Vector.replicate 64 0).set 0 t : Frame) = ((Vector.replicate 64 0).set 0 t : Frame).set 1 0 := by
    apply Vector.ext
    intro k hk
    rw [Vector.getElem_set (i := 1)]
    split
    · rename_i h1; subst h1; simp
    · rfl
  show ((Vector.replicate 64 0).set 0 t : Frame).set 63 _ = (((Vector.replicate 64 0).set 0 t : Frame).set 1 0).set 63 _
  rw [← h]
  rfl

/-- One accepted stream byte does one of two things (R141). -/
theorem receiveByte_cases (b : Byte) (s : State) :
    (∃ h : s.rxcnt.val < 63, receiveByte b s = (s.storeByte b h, .noEvent)) ∨
    (s.rxcnt.val = 63 ∧ receiveByte b s = (s.endFrame, validate s.rxbuf (checksum s.rxbuf.toList) b)) := by
  unfold receiveByte
  split
  · exact .inl ⟨‹_›, rfl⟩
  · exact .inr ⟨by omega, rfl⟩

@[simp] theorem receiveByte_port (b : Byte) (s : State) : (receiveByte b s).1.port = s.port := by
  rcases receiveByte_cases b s with ⟨h, e⟩ | ⟨h, e⟩ <;> rw [e] <;> rfl

@[simp] theorem receiveByte_pending (b : Byte) (s : State) : (receiveByte b s).1.pending = s.pending := by
  rcases receiveByte_cases b s with ⟨h, e⟩ | ⟨h, e⟩ <;> rw [e] <;> rfl

@[simp] theorem receiveByte_freeIdx (b : Byte) (s : State) : (receiveByte b s).1.freeIdx = s.freeIdx := by
  rcases receiveByte_cases b s with ⟨h, e⟩ | ⟨h, e⟩ <;> rw [e] <;> rfl

/-- The bytes received grow by the accepted byte while the frame is incomplete (R23). -/
theorem storeByte_partialFrame (s : State) (b : Byte) (h : s.rxcnt.val < 63) :
    (s.storeByte b h).partialFrame = s.partialFrame ++ [b] := by
  simp only [State.partialFrame, State.storeByte_rxbuf, State.storeByte_rxcnt, memRead_zero]
  apply List.ext_getElem?
  intro k
  have hlen : (List.take s.rxcnt.val s.rxbuf.toList).length = s.rxcnt.val := by simp; omega
  rw [List.getElem?_take]
  by_cases hk : k < s.rxcnt.val
  · rw [if_pos (by omega), List.getElem?_append_left (by omega), List.getElem?_take, if_pos hk]
    rw [Vector.getElem?_toList, Vector.getElem?_toList, Vector.getElem?_set_ne _ (by omega)]
  · rw [List.getElem?_append_right (by omega), hlen]
    by_cases he : k = s.rxcnt.val
    · subst he; simp
    · rw [if_neg (by omega), List.getElem?_eq_none (by simp; omega)]

@[simp] theorem endFrame_partialFrame (s : State) : s.endFrame.partialFrame = [] := by
  simp [State.partialFrame, memRead]

theorem partialFrame_length (s : State) : s.partialFrame.length = s.rxcnt.val := by
  simp only [State.partialFrame, memRead_length, Vector.length_toList]; omega

/-- With 63 bytes received the whole of RXBUF is the partial frame. -/
theorem partialFrame_full (s : State) (h : s.rxcnt.val = 63) : s.partialFrame = s.rxbuf.toList := by
  rw [State.partialFrame, memRead_zero, h, List.take_of_length_le (by simp)]

@[simp] theorem setOut_partialFrame (s : State) (o : Output) : (s.setOut o).partialFrame = s.partialFrame := rfl

end Sys2Proof.Machine
end

