-- ==== Sys2Proof/Laws/MultiByte.lean ====
section
/-! SUPPORT. The little-endian value of a byte sequence by its first byte, its bound, and the bytes of a value. -/

namespace Sys2Proof.Machine

theorem combineFrom_eq (i acc : Nat) (bs : List Byte) :
    combineFrom i acc bs = acc + 2 ^ (8 * i) * combineFrom 0 0 bs := by
  induction bs generalizing i acc with
  | nil => simp [combineFrom]
  | cons b bs ih =>
    rw [combineFrom, ih, combineFrom, ih (0 + 1)]
    simp only [Nat.shiftLeft_eq, Nat.mul_add, Nat.pow_add, Nat.pow_mul]
    ring

@[simp] theorem combineBytes_nil : combineBytes [] = 0 := rfl

/-- The first byte is the least significant (R44). -/
theorem combineBytes_cons (b : Byte) (bs : List Byte) : combineBytes (b :: bs) = b.toNat + 2 ^ 8 * combineBytes bs := by
  rw [combineBytes, combineFrom, combineFrom_eq]; simp [combineBytes]

/-- `n` bytes have a value below 2^(8n) (R124). -/
theorem combineBytes_lt (bs : List Byte) : combineBytes bs < 2 ^ (8 * bs.length) := by
  induction bs with
  | nil => simp
  | cons b bs ih =>
    have := b.isLt
    rw [combineBytes_cons, List.length_cons, Nat.mul_succ, Nat.pow_add]
    nlinarith

@[simp] theorem splitBytes_length (n : Nat) (v : Word) : (splitBytes n v).length = n := by simp [splitBytes]

theorem splitBytes_getElem? (n : Nat) (v : Word) (i : Nat) (h : i < n) :
    (splitBytes n v)[i]? = some (v.extractLsb' (8 * i) 8) := by
  rw [splitBytes, List.getElem?_map, List.getElem?_range h]
  simp only [Option.map_some, Option.some.injEq]
  apply BitVec.eq_of_toNat_eq
  have h255 : (0xFF : Nat) = 2 ^ 8 - 1 := by decide
  rw [BitVec.toNat_ofNat, BitVec.extractLsb'_toNat, h255, Nat.and_two_pow_sub_one_eq_mod, Nat.mod_mod]

end Sys2Proof.Machine
end

