-- ==== Sys2Proof/Laws/PerInstr.lean ====
section
/-! SUPPORT. Statements made for each operation as syntax, one lemma per constructor. -/

namespace Sys2Proof.Laws

/-- The OP code of R71. -/
def opcodeOf : Instr → Fin 16
  | .feedb         => 0x1
  | .build         => 0x2
  | .buildP _      => 0x2
  | .extract _ _ _ => 0x3
  | .insert _ _ _  => 0x4
  | .ismod _ _ _   => 0x5
  | .combine _     => 0x6
  | .split _       => 0x7

/-- The operation's command word has its code in OP and zero in RSV (R71, R73). -/
def EncodedCode.Statement (i : Instr) : Prop :=
  (Fields.ofWord (encode i)).op = opcodeOf i ∧ (Fields.ofWord (encode i)).rsv = 0

theorem EncodedCode.feedb : EncodedCode.Statement .feedb := by
  simp [EncodedCode.Statement, encode, Instr.fields, opcodeOf]
theorem EncodedCode.build : EncodedCode.Statement .build := by
  simp [EncodedCode.Statement, encode, Instr.fields, opcodeOf]
theorem EncodedCode.buildP (len : PayloadLen) : EncodedCode.Statement (.buildP len) := by
  simp [EncodedCode.Statement, encode, Instr.fields, opcodeOf]
theorem EncodedCode.extract (w : Width) (s e : BitIndex) : EncodedCode.Statement (.extract w s e) := by
  simp [EncodedCode.Statement, encode, Instr.fields, opcodeOf]
theorem EncodedCode.insert (w : Width) (s e : BitIndex) : EncodedCode.Statement (.insert w s e) := by
  simp [EncodedCode.Statement, encode, Instr.fields, opcodeOf]
theorem EncodedCode.ismod (w : Width) (s e : BitIndex) : EncodedCode.Statement (.ismod w s e) := by
  simp [EncodedCode.Statement, encode, Instr.fields, opcodeOf]
theorem EncodedCode.combine (n : ByteCount) : EncodedCode.Statement (.combine n) := by
  simp [EncodedCode.Statement, encode, Instr.fields, opcodeOf]
theorem EncodedCode.split (n : ByteCount) : EncodedCode.Statement (.split n) := by
  simp [EncodedCode.Statement, encode, Instr.fields, opcodeOf]

end Sys2Proof.Laws
end

