-- ==== Sys2Proof/Laws/Step.lean ====
section
/-! SUPPORT. What a step does for each thing the requester can present, and how runs compose. -/

namespace Sys2Proof.Machine

theorem step_idle {s : State} (h : s.pending = []) : step s = .next s.undrive := by
  unfold step; rw [h]

theorem step_reset {s : State} {rest : List Stimulus} (h : s.pending = .reset :: rest) :
    step s = .next (s.dequeue rest).applyReset := by
  unfold step; rw [h]

theorem step_operation {s : State} {inp : Inputs} {rest : List Stimulus} {i : Instr}
    (h : s.pending = .operation inp :: rest) (hd : decode inp.cmd = .op i) : step s = exec i (s.present inp rest) := by
  unfold step; rw [h]; simp only; rw [hd]

theorem step_illegal {s : State} {inp : Inputs} {rest : List Stimulus}
    (h : s.pending = .operation inp :: rest) (hd : decode inp.cmd = .illegal) :
    step s = .next ((s.present inp rest).setOut .illegal) := by
  unfold step; rw [h]; simp only; rw [hd]; rfl

/-- Every operation but FEEDB only drives the outputs (R48): it completes with a result or is rejected. -/
theorem exec_eq_setOut (i : Instr) (s : State) (hi : i ≠ .feedb) : ∃ o, exec i s = .next (s.setOut o) := by
  cases i with
  | feedb => exact absurd rfl hi
  | build => simp only [exec, execBuild, complete, raiseBadOperand]; split <;> exact ⟨_, rfl⟩
  | buildP len => simp only [exec, execBuildP, complete, raiseBadOperand, raiseIllegal]; split_ifs <;> exact ⟨_, rfl⟩
  | extract w s e => simp only [exec, execExtract, complete, raiseBadOperand, raiseIllegal]; split_ifs <;> exact ⟨_, rfl⟩
  | insert w s e => simp only [exec, execInsert, complete, raiseBadOperand, raiseIllegal]; split_ifs <;> exact ⟨_, rfl⟩
  | ismod w s e => simp only [exec, execIsmod, complete, raiseBadOperand, raiseIllegal]; split_ifs <;> exact ⟨_, rfl⟩
  | combine n => simp only [exec, execCombine, complete, raiseIllegal]; split <;> exact ⟨_, rfl⟩
  | split n => simp only [exec, execSplit, complete, raiseIllegal]; split <;> exact ⟨_, rfl⟩

/-- A FEEDB of a byte receives it (R141). -/
theorem exec_feedb_byte {s : State} (h : s.port.opa.toNat < 2 ^ 8) :
    exec .feedb s = .next ((receiveByte (lowByte s.port.opa) s).1.setOut (.event (receiveByte (lowByte s.port.opa) s).2)) := by
  exact if_pos ((isByte_iff _).2 h)

/-- A FEEDB of anything else is rejected (R202). -/
theorem exec_feedb_rejected {s : State} (h : ¬ s.port.opa.toNat < 2 ^ 8) :
    exec .feedb s = .next (s.setOut (.badOperand .a s.port.opa)) := by
  exact if_neg fun hb => h ((isByte_iff _).1 hb)

/-- A step on a FEEDB of `b` receives `b`, whatever the inputs FEEDB does not read. -/
theorem step_feed {s : State} {b : Byte} {x : Stimulus} {rest : List Stimulus}
    (h : s.pending = x :: rest) (hx : isFeedOf b x) :
    ∃ inp, step s = .next ((receiveByte b (s.present inp rest)).1.setOut
      (.event (receiveByte b (s.present inp rest)).2)) := by
  cases x with
  | reset => exact hx.elim
  | operation inp =>
    obtain ⟨hc, ha⟩ := hx
    refine ⟨inp, ?_⟩
    have hd : decode inp.cmd = .op .feedb := by rw [hc]; decide
    have hb : (s.present inp rest).port.opa = b.setWidth 32 := ha
    rw [step_operation h hd, exec_feedb_byte (by rw [hb]; exact setWidth_lt b), hb, lowByte_setWidth]

/-- The expansion of `feed` feeds its bytes (R78). -/
theorem feeds_feedOps (bs : List Byte) : Feeds bs (feedOps bs) := by
  induction bs with
  | nil => trivial
  | cons b bs ih => exact ⟨⟨rfl, rfl⟩, ih⟩

@[simp] theorem observe_zero (s : State) : observe 0 s = .next (s, []) := rfl

theorem observe_succ {k : Nat} {s t u : State} {os : List Output} (h : step s = .next t)
    (ho : observe k t = .next (u, os)) : observe (k + 1) s = .next (u, t.out.toList ++ os) := by
  simp [observe, h, ho]

/-- Runs compose: the outputs of the second follow those of the first. -/
theorem observe_add {j k : Nat} {s t u : State} {os os' : List Output} (h : observe j s = .next (t, os))
    (h' : observe k t = .next (u, os')) : observe (j + k) s = .next (u, os ++ os') := by
  induction j generalizing s os with
  | zero => simp only [observe_zero, Host.Outcome.next.injEq, Prod.mk.injEq] at h; obtain ⟨rfl, rfl⟩ := h; simpa using h'
  | succ j ih =>
    rw [Nat.succ_add]
    rw [observe] at h
    split at h
    · cases h
    · cases h
    · rename_i t₁ h₁
      split at h
      · cases h
      · cases h
      · rename_i u₁ os₁ h₂
        simp only [Host.Outcome.next.injEq, Prod.mk.injEq] at h
        obtain ⟨rfl, rfl⟩ := h
        rw [observe_succ h₁ (ih h₂), List.append_assoc]

/-- BUILD of a byte tag completes with the frame and changes nothing else (R171). -/
theorem execBuild_ok {s : State} (h : s.port.opa.toNat < 2 ^ 8) :
    execBuild s = .next (s.setOut (.bytes (buildFrame (lowByte s.port.opa) none).toList)) :=
  if_pos ((isByte_iff _).2 h)

/-- BUILD.P of a byte tag completes with the frame and changes nothing else (R171). -/
theorem execBuildP_ok {s : State} {len : PayloadLen} (hl : len.val ≤ 61) (h : s.port.opa.toNat < 2 ^ 8) :
    execBuildP len s =
      .next (s.setOut (.bytes (buildFrame (lowByte s.port.opa) (some (payinBytes s.port len.val))).toList)) :=
  (if_pos ((legalPayload_iff _).2 hl)).trans (if_pos ((isByte_iff _).2 h))

end Sys2Proof.Machine
end

