-- ==== Sys2Proof/Tests/Slice0.lean ====
section
/-! SUPPORT. Tests with results from outside the model (the vectors of spec/95_test_vectors.md), the smoke test of
WellFormed, and for every statement with hypotheses a witness that meets them together. -/

namespace Sys2Proof.Tests

open Sys2Proof Sys2Proof.Machine

/-! ## Helpers -/

/-- The reset state with these data inputs on the ports. -/
def withInputs (opa opb : Word) (bs : List Byte) : State :=
  { State.reset with port := { cmd := 0, opa := opa, opb := opb, payin := toPayin bs } }

/-- A state with `n` bytes of a candidate frame received. -/
def withPartial (n : Fin 64) (bs : List Byte) (opa : Word) : State :=
  { withInputs opa 0 [] with rxbuf := memWrite (Vector.replicate 63 0) 0 bs, rxcnt := n }

/-- The outputs an outcome drives. -/
def outOf : Host.Outcome State Fault Refusal → Option Output
  | .next t    => t.out
  | .fault _   => none
  | .refused _ => none

/-- The reset state with this queue. -/
def withQueue (q : List Stimulus) : State := { State.reset with pending := q }

/-- The inputs of an operation given by its command word. -/
def inputsOf (cmd opa opb : Word) (bs : List Byte) : Inputs := { cmd := cmd, opa := opa, opb := opb, payin := toPayin bs }

/-! ## Decoding: words written out from the field table of R70 (vectors V1) -/

/-- OP 0001, every other field 0. -/
theorem test_decode_feedb : decode 0b0000000_000000_0_000_00000_00000_0_0001#32 = .op .feedb := by decide
/-- OP 0010, every other field 0. -/
theorem test_decode_build : decode 0b0000000_000000_0_000_00000_00000_0_0010#32 = .op .build := by decide
/-- OP 0010, P 1, LEN 111101. -/
theorem test_decode_buildP : decode 0b0000000_111101_1_000_00000_00000_0_0010#32 = .op (.buildP 61) := by decide
/-- OP 0011, W 0, S 2, E 4. -/
theorem test_decode_extract : decode 0b0000000_000000_0_000_00100_00010_0_0011#32 = .op (.extract .byte 2 4) := by decide
/-- OP 0100, W 1, S 31, E 31. -/
theorem test_decode_insert : decode 0b0000000_000000_0_000_11111_11111_1_0100#32 = .op (.insert .grouped 31 31) := by
  decide
/-- OP 0101, W 0, S 2, E 4. -/
theorem test_decode_ismod : decode 0b0000000_000000_0_000_00100_00010_0_0101#32 = .op (.ismod .byte 2 4) := by decide
/-- OP 0110, N 4. -/
theorem test_decode_combine : decode 0b0000000_000000_0_100_00000_00000_0_0110#32 = .op (.combine 4) := by decide
/-- OP 0111, N 2. -/
theorem test_decode_split : decode 0b0000000_000000_0_010_00000_00000_0_0111#32 = .op (.split 2) := by decide
/-- A reserved code, RSV set, an unused field set, LEN 62, E below S, an index above 7 in byte mode, N 5 (V1). -/
theorem test_decode_illegal :
    [0x00000000, 0x00000008, 0x80000001, 0x00000011, 0x00080002, 0x01F40002, 0x00000883, 0x00002003, 0x00028006].map decode
      = List.replicate 9 .illegal := by decide

/-! ## WellFormed refuses an ill-formed operation for each of its checks -/

theorem test_wf_payload : ¬ (Instr.buildP 62).WellFormed := by decide
theorem test_wf_extract_order : ¬ (Instr.extract .grouped 4 2).WellFormed := by decide
theorem test_wf_extract_byte : ¬ (Instr.extract .byte 0 8).WellFormed := by decide
theorem test_wf_insert_order : ¬ (Instr.insert .byte 4 2).WellFormed := by decide
theorem test_wf_insert_byte : ¬ (Instr.insert .byte 8 8).WellFormed := by decide
theorem test_wf_ismod_order : ¬ (Instr.ismod .grouped 31 30).WellFormed := by decide
theorem test_wf_ismod_byte : ¬ (Instr.ismod .byte 7 8).WellFormed := by decide
theorem test_wf_combine : ¬ (Instr.combine 5).WellFormed := by decide
theorem test_wf_split : ¬ (Instr.split 5).WellFormed := by decide

/-! ## One operation each (vectors V2 to V8) -/

/-- V2: the mask of a 32-bit field is exact (D9). -/
theorem test_extract_full : (outOf (exec (.extract .grouped 0 31) (withInputs 0xDEADBEEF 0 []))).map Output.res
    = some 0xDEADBEEF := by decide
/-- V2: a byte-mode operand above 255 is BAD_OPERAND. -/
theorem test_extract_bad : (outOf (exec (.extract .byte 2 4) (withInputs 0x100 0 []))).map Output.status
    = some .badOperand := by decide
/-- V3: bits of OPB above the field are dropped. -/
theorem test_insert_truncates : (outOf (exec (.insert .byte 2 4) (withInputs 0xB6 0xFFFFFFFF []))).map Output.res
    = some 0xBE := by decide
/-- V3: the top bit of a grouped register. -/
theorem test_insert_top : (outOf (exec (.insert .grouped 31 31) (withInputs 0 1 []))).map Output.res
    = some 0x80000000 := by decide
/-- V4: a difference outside the field is not seen. -/
theorem test_ismod_outside : (outOf (exec (.ismod .byte 0 1) (withInputs 0xB6 0xA2 []))).map Output.res = some 0 := by
  decide
/-- V4: OPB is checked too. -/
theorem test_ismod_bad : (outOf (exec (.ismod .byte 0 7) (withInputs 0x5A 0x15A []))).map Output.status
    = some .badOperand := by decide
/-- V5: the last byte is the most significant, and the value is unsigned. -/
theorem test_combine_top : (outOf (exec (.combine 4) (withInputs 0 0 [0, 0, 0, 0x80, 9]))).map Output.res
    = some 0x80000000 := by decide
/-- V5: bytes at index N and above are not read. -/
theorem test_combine_two : (outOf (exec (.combine 2) (withInputs 0 0 [0x34, 0x12, 0xFF]))).map Output.res
    = some 0x1234 := by decide
/-- V6: the least significant byte comes first. -/
theorem test_split_four : (outOf (exec (.split 4) (withInputs 0x12345678 0 []))).map Output.resbytes
    = some [0x78, 0x56, 0x34, 0x12] := by decide
/-- V6: no lanes, no bytes. -/
theorem test_split_none : (outOf (exec (.split 0) (withInputs 0x12345678 0 []))).map Output.resbytes = some [] := by
  decide
/-- V7: the tag is its own checksum. -/
theorem test_build : (outOf (exec .build (withInputs 0x10 0 []))).map Output.resbytes
    = some (0x10 :: List.replicate 62 0 ++ [0x10]) := by decide
/-- V7: `build 0x100`. -/
theorem test_build_bad : (outOf (exec .build (withInputs 0x100 0 []))).map Output.status = some .badOperand := by decide
/-- V7: the frame of W3. -/
theorem test_buildP : (outOf (exec (.buildP 3) (withInputs 0x21 0 [1, 2, 3, 9]))).map Output.resbytes
    = some ([0x21, 3, 1, 2, 3] ++ List.replicate 58 0 ++ [0x2A]) := by decide
/-- V7: a full payload leaves no padding, and the checksum wraps. -/
theorem test_buildP_full :
    (match outOf (exec (.buildP 61) (withInputs 0xFF 0 (List.replicate 61 0xFF))) with
      | some o => o.resbytes.take 3 == [0xFF, 0x3D, 0xFF] && o.resbytes.drop 62 == [0xFF, 0xFF]
      | none => false) = true := by decide +kernel
/-- V8: checksum and length both bad; the checksum is tested first. -/
theorem test_feedb_both_bad : (outOf (exec .feedb (withPartial 63 [0x21, 0xFF] 0x00))).map Output.rxevt
    = some (.checksumMismatch 0x20 0x00) := by decide
/-- V8: nonzero padding is not checked. -/
theorem test_feedb_padding : (outOf (exec .feedb (withPartial 63 [0x21, 0x02, 0xAA, 0xBB, 0xCC] 0x54))).map Output.rxevt
    = some (.frameOk 0x21 2 [0xAA, 0xBB]) := by decide

/-! ## Witnesses: the hypotheses of each statement, met together -/

theorem witness_StepRunsDecoded :
    (withQueue [.operation (inputsOf 0x00001043 0xB6 0 [])]).pending = .operation (inputsOf 0x00001043 0xB6 0 []) :: [] ∧
      (Instr.extract .byte 2 4).WellFormed ∧ (inputsOf 0x00001043 0xB6 0 []).cmd = encode (.extract .byte 2 4) := by
  decide

theorem witness_IllegalCommandRejected :
    (withQueue [.operation (inputsOf 0x00028006 0 0 [])]).pending = .operation (inputsOf 0x00028006 0 0 []) :: [] ∧
      decode (inputsOf 0x00028006 0 0 []).cmd = .illegal := by decide

theorem witness_IllFormedRejected : ¬ (Instr.split 5).WellFormed := by decide

theorem witness_PlacedWordRuns : decodeTableWord 32 0x00040002 = some (.buildP 0) := by decide

theorem witness_ResetInput : (withQueue [.reset]).pending = .reset :: [] := rfl

theorem witness_IdleStep : State.reset.pending = [] := rfl

/-- A rejected operation of each kind: ILLEGAL and BAD_OPERAND. -/
theorem witness_RejectedHasNoEffect :
    (∃ t, step (withQueue [.operation (inputsOf 0x00000011 0 0 [])]) = .next t ∧ t.out = some .illegal ∧
      Output.illegal.status ≠ .ok) ∧
    (∃ t, step (withQueue [.operation (inputsOf 0x00000001 0x121 0 [])]) = .next t ∧
      t.out = some (.badOperand .a 0x121) ∧ (Output.badOperand .a 0x121).status ≠ .ok) :=
  ⟨⟨_, rfl, rfl, by decide⟩, ⟨_, rfl, rfl, by decide⟩⟩

/-- OPA just out of range; OPA in range and OPB just out of range; both at the top of their range. -/
theorem witness_OperandsChecked :
    (Instr.ismod .byte 0 7).WellFormed ∧
    operandAOutOfRange (.ismod .byte 0 7) (inputsOf 0 0x100 0x100 []) ∧
    (¬ operandAOutOfRange (.ismod .byte 0 7) (inputsOf 0 0xFF 0x100 []) ∧
      operandBOutOfRange (.ismod .byte 0 7) (inputsOf 0 0xFF 0x100 [])) ∧
    (¬ operandAOutOfRange (.ismod .byte 0 7) (inputsOf 0 0xFF 0xFF []) ∧
      ¬ operandBOutOfRange (.ismod .byte 0 7) (inputsOf 0 0xFF 0xFF [])) := by
  simp [operandAOutOfRange, operandBOutOfRange, inputsOf, Instr.WellFormed, Instr.wf, Width.fieldOk]

/-- ILLEGAL; the three operand cases are those of `witness_OperandsChecked`; and completing FEEDBs: one whose frame
fails both the checksum and the length, one that fails the length alone, one that fails neither. -/
theorem witness_OutcomePriority :
    decode (inputsOf 0x00000008 0 0 []).cmd = .illegal ∧
    decode (inputsOf 0x00001C05 0x100 0x100 []).cmd = .op (.ismod .byte 0 7) ∧
    (decode (inputsOf 0x00000001 0 0 []).cmd = .op .feedb ∧ (withPartial 63 [0x21, 0xFF] 0).rxcnt = 63 ∧
      ((withPartial 63 [0x21, 0xFF] 0).rxbuf.toList.map BitVec.toNat).sum % 2 ^ 8 ≠ (inputsOf 0x00000001 0 0 []).opa.toNat) ∧
    (((withPartial 63 [0x21, 62] 0).rxbuf.toList.map BitVec.toNat).sum % 2 ^ 8 = (inputsOf 0x00000001 0x5F 0 []).opa.toNat ∧
      61 < (withPartial 63 [0x21, 62] 0).rxbuf[1].toNat) ∧
    (((withPartial 63 [0x21, 61] 0).rxbuf.toList.map BitVec.toNat).sum % 2 ^ 8 = (inputsOf 0x00000001 0x5E 0 []).opa.toNat ∧
      (withPartial 63 [0x21, 61] 0).rxbuf[1].toNat ≤ 61) := by decide

/-- A FEEDB at RXCNT = 62 with another index; an operation that is no FEEDB. -/
theorem witness_ExecFrame :
    (∃ t, exec .feedb (withPartial 62 [] 5) = .next t) ∧ (0 : Nat) ≠ (withPartial 62 [] 5).rxcnt.val ∧
    (∃ t, exec .build (withPartial 62 [] 5) = .next t) ∧ Instr.build ≠ .feedb :=
  ⟨⟨_, rfl⟩, by decide, ⟨_, rfl⟩, by decide⟩

/-- An EXTRACT and a rejected FEEDB. -/
theorem witness_PartialFramePersists :
    let ps := [inputsOf 0x00001043 0xB6 0 [], inputsOf 0x00000001 0x100 0 []]
    (withQueue (ps.map .operation ++ [.reset])).pending = ps.map .operation ++ [.reset] ∧
      ∀ p ∈ ps, decode p.cmd = .op .feedb → 2 ^ 8 ≤ p.opa.toNat := by decide

/-- PAYIN differs where COMBINE does not read; RXBUF differs where FEEDB does not read. -/
theorem witness_UnreadInputsDoNotMatter :
    sameInputsRead (.combine 1) (inputsOf 0 1 2 [7, 8]) (inputsOf 0 3 4 [7, 9]) ∧
    (sameInputsRead .feedb (withPartial 1 [7, 8] 5).port (withPartial 1 [7, 9] 5).port ∧
      (withPartial 1 [7, 8] 5).rxcnt = (withPartial 1 [7, 9] 5).rxcnt ∧
      ∀ k < (withPartial 1 [7, 8] 5).rxcnt.val, (withPartial 1 [7, 8] 5).rxbuf[k]? = (withPartial 1 [7, 9] 5).rxbuf[k]?) := by
  refine ⟨?_, ?_, ?_, ?_⟩
  · show ∀ k < 1, _
    decide
  · exact rfl
  · decide
  · decide

theorem witness_OperationsCommute : decode (inputsOf 0x00000002 0x10 0 []).cmd ≠ .op .feedb := by decide

theorem witness_StepKeepsOutputsLegal :
    ∃ t, step (withQueue [.operation (inputsOf 0x00000002 0x10 0 [])]) = .next t ∧ t.out ≠ none :=
  ⟨_, rfl, by decide⟩

theorem witness_InstancesIndependent :
    (System.mk [State.reset, withQueue [.reset]]).instances[1]? = some (withQueue [.reset]) ∧ (0 : Nat) ≠ 1 := by decide

/-- The whole byte at its top value, and the whole word. -/
theorem witness_ExtractReadsField :
    ((Instr.extract .byte 0 7).WellFormed ∧ (withInputs 0xFF 0 []).port.opa.toNat < 2 ^ 8) ∧
    (Instr.extract .grouped 0 31).WellFormed ∧ Width.grouped ≠ .byte := by decide

theorem witness_InsertWritesField :
    ((Instr.insert .byte 7 7).WellFormed ∧ (withInputs 0xFF 0 []).port.opa.toNat < 2 ^ 8) ∧
    (Instr.insert .grouped 31 31).WellFormed ∧ Width.grouped ≠ .byte := by decide

/-- A pair that differs in the field, at its upper edge (bit 4), and a pair that differs only above it (bit 5). -/
theorem witness_IsmodComparesField :
    (Instr.ismod .byte 2 4).WellFormed ∧ (0xB6#32).toNat < 2 ^ 8 ∧ (0xA6#32).toNat < 2 ^ 8 ∧ (0x96#32).toNat < 2 ^ 8 ∧
    (0xB6#32).getLsbD 4 ≠ (0xA6#32).getLsbD 4 ∧ (∀ k ≤ 4, 2 ≤ k → (0xB6#32).getLsbD k = (0x96#32).getLsbD k) := by decide

theorem witness_InsertThenExtract : Width.byte.fieldOk 0 7 = true ∧ (0xFF#32).toNat < 2 ^ 8 := by decide

/-- Two disjoint fields, one on each side, and a reset value in range. -/
theorem witness_BitFieldLaws :
    Width.byte.fieldOk 2 4 = true ∧ (0xFF#32).toNat < 2 ^ 8 ∧
    (Width.byte.fieldOk 5 7 = true ∧ (4 : BitIndex).val < (5 : BitIndex).val) ∧
    (Width.byte.fieldOk 0 1 = true ∧ (1 : BitIndex).val < (2 : BitIndex).val) ∧ (0xA2#32).toNat < 2 ^ 8 ∧
    resOf (outputOf (.insert .byte 2 4) State.reset 0xB6 3 []) = some 0xAE := by decide

theorem witness_CombinePacksBytes : (0 : ByteCount).val ≤ 4 ∧ (4 : ByteCount).val ≤ 4 := by decide

theorem witness_SplitUnpacksBytes : (0 : ByteCount).val ≤ 4 ∧ (4 : ByteCount).val ≤ 4 := by decide

theorem witness_PackerRoundTrip :
    (4 : ByteCount).val ≤ 4 ∧ ([0x78, 0x56, 0x34, 0x12] : List Byte).length = (4 : ByteCount).val := by decide

theorem witness_BuildResult :
    (withInputs 0xFF 0 []).port.opa.toNat < 2 ^ 8 ∧ (0 : PayloadLen).val ≤ 61 ∧ (61 : PayloadLen).val ≤ 61 := by decide

theorem witness_BuiltFramesWellFormed :
    ∃ t o, isBuild (.buildP 61) = true ∧ exec (.buildP 61) (withInputs 0xFF 0 []) = .next t ∧ t.out = some o ∧
      o.status = .ok := ⟨_, _, rfl, rfl, rfl, rfl⟩

theorem witness_SingleBitSensitivity : checksumValid (buildFrame 0x21 (some [1, 2, 3])) = true := by decide

theorem witness_ChecksumLimits :
    checksumValid (buildFrame 0x21 (some [1, 2, 3])) = true ∧ (0 : Fin 63) ≠ (62 : Fin 63) := by decide

/-- The first and the last byte a FEEDB stores. -/
theorem witness_FeedbStoresByte :
    ((withPartial 0 [] 0xFF).port.opa.toNat < 2 ^ 8 ∧ (withPartial 0 [] 0xFF).rxcnt.val < 63) ∧
    ((withPartial 62 [] 0xFF).port.opa.toNat < 2 ^ 8 ∧ (withPartial 62 [] 0xFF).rxcnt.val < 63) := by decide

/-- A mismatch; a matching checksum with length 62; a matching checksum with length 61. -/
theorem witness_FeedbCompletesFrame :
    (withPartial 63 [0x21, 61] 0x5E).rxcnt = 63 ∧
    ((withPartial 63 [0x21, 61] 0x5F).port.opa.toNat < 2 ^ 8 ∧
      ((withPartial 63 [0x21, 61] 0x5F).rxbuf.toList.map BitVec.toNat).sum % 2 ^ 8 ≠ 0x5F) ∧
    (((withPartial 63 [0x21, 62] 0x5F).rxbuf.toList.map BitVec.toNat).sum % 2 ^ 8 = 0x5F ∧
      61 < (withPartial 63 [0x21, 62] 0x5F).rxbuf[1].toNat) ∧
    (((withPartial 63 [0x21, 61] 0x5E).rxbuf.toList.map BitVec.toNat).sum % 2 ^ 8 = 0x5E ∧
      (withPartial 63 [0x21, 61] 0x5E).rxbuf[1].toNat ≤ 61) := by decide

/-- Two accepted bytes with an EXTRACT and a rejected FEEDB between them. -/
theorem witness_StreamAlignment :
    let ops := [inputsOf 0x00000001 0x21 0 [], inputsOf 0x00001043 0xB6 0 [], inputsOf 0x00000001 0x100 0 [],
      inputsOf 0x00000001 0xFF 0 []]
    (withQueue (.reset :: (ops.map .operation ++ [.reset]))).pending = .reset :: (ops.map .operation ++ [.reset]) ∧
      streamBytes ops = [0x21, 0xFF] := by decide

theorem witness_FeedRefinesSource :
    Feeds [1, 2, 3] (feedOps [1, 2, 3]) ∧ (withQueue (feedOps [1, 2, 3] ++ [])).pending = feedOps [1, 2, 3] ++ [] :=
  ⟨feeds_feedOps _, rfl⟩

/-- One stream cut in two ways, from states that differ in their stale bytes. -/
theorem witness_ChunkBoundaryIndependence :
    ([[1], [2, 3]] : List (List Byte)).flatten = [[1, 2], [], [3]].flatten ∧ Feeds [1, 2, 3] (feedOps [1, 2, 3]) ∧
      (withPartial 1 [7, 8] 5).partialFrame = (withPartial 1 [7, 9] 5).partialFrame :=
  ⟨rfl, feeds_feedOps _, by decide⟩

/-- Every byte sequence can be fed from RXCNT = 0. -/
theorem feeds_from_reset (bs : List Byte) :
    ∃ (s : State) (q rest : List Stimulus), s.rxcnt = 0 ∧ Feeds bs q ∧ s.pending = q ++ rest :=
  ⟨withQueue (feedOps bs ++ []), feedOps bs, [], rfl, feeds_feedOps _, rfl⟩

theorem witness_BuildThenFeed :
    (∃ (b s u : State) (o : Output) (q rest : List Stimulus), b.port.opa.toNat < 2 ^ 8 ∧ s.rxcnt = 0 ∧
      u.out = some o ∧ Feeds o.resbytes q ∧ s.pending = q ++ rest ∧ exec .build b = .next u) ∧
    (∃ (b s u : State) (o : Output) (q rest : List Stimulus) (len : PayloadLen), b.port.opa.toNat < 2 ^ 8 ∧
      s.rxcnt = 0 ∧ u.out = some o ∧ Feeds o.resbytes q ∧ s.pending = q ++ rest ∧ len.val = 61 ∧
      exec (.buildP len) b = .next u) := by
  have ha : (withInputs 0x21 0 [1, 2, 3]).port.opa.toNat < 2 ^ 8 := by decide
  generalize withInputs 0x21 0 [1, 2, 3] = b at ha
  constructor
  · obtain ⟨s, q, rest, h0, hf, hq⟩ := feeds_from_reset (buildFrame (lowByte b.port.opa) none).toList
    exact ⟨b, s, _, _, q, rest, ha, h0, rfl, hf, hq, execBuild_ok ha⟩
  · obtain ⟨s, q, rest, h0, hf, hq⟩ :=
      feeds_from_reset (buildFrame (lowByte b.port.opa) (some (payinBytes b.port 61))).toList
    exact ⟨b, s, _, _, q, rest, 61, ha, h0, rfl, hf, hq, rfl, execBuildP_ok (by decide) ha⟩

theorem witness_FlippedBitDetected :
    ∃ (b u s : State) (o : Output) (f : Frame) (q rest : List Stimulus),
      isBuild .build = true ∧ exec .build b = .next u ∧ u.out = some o ∧ f.toList = o.resbytes ∧
      Feeds (flipBit f 63 7).toList q ∧ s.rxcnt = 0 ∧ s.pending = q ++ rest := by
  obtain ⟨s, q, rest, h0, hf, hq⟩ := feeds_from_reset (flipBit (buildFrame 0x21 none) 63 7).toList
  exact ⟨withInputs 0x21 0 [], _, s, _, buildFrame 0x21 none, q, rest, rfl, rfl, rfl, rfl, hf, h0, hq⟩

theorem witness_ZeroFrameDelivered :
    ∃ (s : State) (q rest : List Stimulus), s.rxcnt = 0 ∧ Feeds (List.replicate 64 0) q ∧ s.pending = q ++ rest :=
  feeds_from_reset _

theorem witness_ShiftedFrameCanBeDelivered :
    ∃ (s : State) (q rest : List Stimulus), s.rxcnt = 0 ∧
      Feeds ((((buildFrame 5 (some [0])).toList ++ (buildFrame 7 none).toList).drop 1).take 64) q ∧
      s.pending = q ++ rest :=
  feeds_from_reset _

theorem witness_ClockPushLoopback :
    (Config.Tags.mk 1 2 3 4 5 6 7 8 9 10 11 12).Legal ∧
      ∃ (s : State) (q rest : List Stimulus), s.rxcnt = 0 ∧
        Feeds (buildFrame 6 (some (List.replicate 12 0))).toList q ∧ s.pending = q ++ rest :=
  ⟨by decide, feeds_from_reset _⟩

end Sys2Proof.Tests
end

section
/-! PROOFS. The receive state of spec/10_state.md: the relation to the source's buffer (R23), the running sum (R24) and
systems of several codecs (R33). -/

namespace Sys2Proof.Machine

/-! ## How a step ends (R13, R206) -/

/-- An outcome that only drives the outputs and reports no receive event: how every operation but an accepted FEEDB
ends (R13, R48). -/
def EndsWithoutEvent (s : State) (r : Host.Outcome State Fault Refusal) : Prop :=
  ∃ o : Output, o.rxevt = .noEvent ∧ r = .next (s.setOut o)

@[simp] theorem endsWithoutEvent_scalar (s : State) (v : Word) : EndsWithoutEvent s (complete (.scalar v) s) :=
  ⟨_, rfl, rfl⟩

@[simp] theorem endsWithoutEvent_bytes (s : State) (bs : List Byte) : EndsWithoutEvent s (complete (.bytes bs) s) :=
  ⟨_, rfl, rfl⟩

@[simp] theorem endsWithoutEvent_illegal (s : State) : EndsWithoutEvent s (raiseIllegal s) := ⟨_, rfl, rfl⟩

@[simp] theorem endsWithoutEvent_badOperand (s : State) (x : OperandName) (v : Word) :
    EndsWithoutEvent s (raiseBadOperand x v s) :=
  ⟨_, rfl, rfl⟩

/-- No operation but FEEDB reports a receive event or changes the receive state (R48, R170). -/
theorem exec_endsWithoutEvent (i : Instr) (s : State) (hi : i ≠ .feedb) : EndsWithoutEvent s (exec i s) := by
  cases i with
  | feedb => exact absurd rfl hi
  | build => simp only [exec, execBuild]; split_ifs <;> simp
  | buildP len => simp only [exec, execBuildP]; split_ifs <;> simp
  | extract w b e => simp only [exec, execExtract]; split_ifs <;> simp
  | insert w b e => simp only [exec, execInsert]; split_ifs <;> simp
  | ismod w b e => simp only [exec, execIsmod]; split_ifs <;> simp
  | combine n => simp only [exec, execCombine]; split_ifs <;> simp
  | split n => simp only [exec, execSplit]; split_ifs <;> simp

/-- A step on an accepted FEEDB receives its byte (R141). -/
theorem step_acceptedFeed {s : State} {inp : Inputs} {rest : List Stimulus} (h : s.pending = .operation inp :: rest)
    (hd : decode inp.cmd = .op .feedb) (ha : inp.opa.toNat < 2 ^ 8) :
    step s = .next ((receiveByte (lowByte inp.opa) (s.present inp rest)).1.setOut
      (.event (receiveByte (lowByte inp.opa) (s.present inp rest)).2)) := by
  rw [step_operation h hd, exec_feedb_byte (by simpa using ha), State.present_port]

/-- A step on anything else the requester presents only drives the outputs, with no receive event (R170, R203). -/
theorem step_otherOperation {s : State} {inp : Inputs} {rest : List Stimulus}
    (h : s.pending = .operation inp :: rest) (hn : ¬ (decode inp.cmd = .op .feedb ∧ inp.opa.toNat < 2 ^ 8)) :
    EndsWithoutEvent (s.present inp rest) (step s) := by
  cases hd : decode inp.cmd with
  | illegal => exact ⟨_, rfl, step_illegal h hd⟩
  | op i =>
    rw [step_operation h hd]
    by_cases hi : i = .feedb
    · subst hi
      exact ⟨_, rfl, exec_feedb_rejected fun ha => hn ⟨hd, ha⟩⟩
    · exact exec_endsWithoutEvent i _ hi

/-- No step stops the block, whatever its state (R206). -/
theorem step_completes (s : State) : ∃ t, step s = .next t := by
  cases hq : s.pending with
  | nil => exact ⟨_, step_idle hq⟩
  | cons x rest =>
    cases x with
    | reset => exact ⟨_, step_reset hq⟩
    | operation inp =>
      by_cases hf : decode inp.cmd = .op .feedb ∧ inp.opa.toNat < 2 ^ 8
      · exact ⟨_, step_acceptedFeed hq hf.1 hf.2⟩
      · obtain ⟨o, -, ho⟩ := step_otherOperation hq hf
        exact ⟨_, ho⟩

/-! ## A system of several codecs (R33) -/

/-- A step on index `k` writes the state that the step of codec `k` gives. -/
theorem System.stepOn_next {sys : System} {k : Nat} {s t : State} (hk : sys.instances[k]? = some s)
    (h : step s = .next t) : sys.stepOn k = .next { instances := sys.instances.set k t } := by
  simp [System.stepOn, hk, h]

/-- Settles O24: a step always completes, and `stepOn` writes its result at index `k` and nowhere else. -/
theorem instancesIndependent : Obligations.InstancesIndependent := by
  intro sys k s hk
  obtain ⟨t, ht⟩ := step_completes s
  have hlt : k < sys.instances.length := (List.getElem?_eq_some_iff.1 hk).1
  exact ⟨t, _, ht, System.stepOn_next hk ht, List.getElem?_set_self hlt,
    fun j hj => List.getElem?_set_ne (Ne.symm hj)⟩

/-! ## The running sum (R24) -/

theorem receiveByteWithSum_of_lt {s : State} (b sum : Byte) (h : s.rxcnt.val < 63) :
    receiveByteWithSum b s sum = (s.storeByte b h, .noEvent, sum + b) :=
  dif_pos h

theorem receiveByteWithSum_of_full {s : State} (b sum : Byte) (h : s.rxcnt.val = 63) :
    receiveByteWithSum b s sum = (s.endFrame, validate s.rxbuf sum b, 0) :=
  dif_neg (by omega)

/-- Storing a byte adds it to the sum. -/
theorem storeByte_runningSum (s : State) (b : Byte) (h : s.rxcnt.val < 63) :
    (s.storeByte b h).runningSum = s.runningSum + b := by
  rw [State.runningSum, storeByte_partialFrame, checksum_append, checksum_singleton, State.runningSum]

@[simp] theorem endFrame_runningSum (s : State) : s.endFrame.runningSum = 0 := by
  rw [State.runningSum, endFrame_partialFrame, checksum_nil]

/-- With 63 bytes received the sum is the checksum that the parser recomputes. -/
theorem runningSum_of_full {s : State} (h : s.rxcnt.val = 63) : s.runningSum = checksum s.rxbuf.toList := by
  rw [State.runningSum, partialFrame_full s h]

/-- Settles O40, in the two cases of an accepted byte: stored, or byte 63. -/
theorem runningSumAgrees : Obligations.RunningSumAgrees := by
  intro b s
  rcases receiveByte_cases b s with ⟨h, e⟩ | ⟨h, e⟩
  · rw [e, receiveByteWithSum_of_lt b _ h]
    exact ⟨rfl, (storeByte_runningSum s b h).symm⟩
  · rw [e, receiveByteWithSum_of_full b _ h, runningSum_of_full h]
    exact ⟨rfl, (endFrame_runningSum s).symm⟩

/-! ## The source's receive algorithm, frame by frame (R140) -/

/-- Induction on a stream by its 64-byte frames. -/
theorem frames_induction {P : List Byte → Prop} (short : ∀ l, l.length < 64 → P l)
    (frame : ∀ l, 64 ≤ l.length → P (l.drop 64) → P l) (l : List Byte) : P l :=
  if h : l.length < 64 then short l h
  else frame l (by omega) (frames_induction short frame (l.drop 64))
termination_by l.length
decreasing_by simp; omega

/-- Fuel above the buffer's length changes nothing. -/
theorem feedSrcLoop_fuel {m n : Nat} {l : List Byte} (hm : l.length ≤ m) (hn : l.length ≤ n) :
    feedSrcLoop m l = feedSrcLoop n l := by
  induction m generalizing n l with
  | zero =>
    obtain rfl : l = [] := List.length_eq_zero_iff.1 (by omega)
    cases n <;> rfl
  | succ m ih =>
    cases n with
    | zero =>
      obtain rfl : l = [] := List.length_eq_zero_iff.1 (by omega)
      rfl
    | succ n =>
      have hrec : 64 ≤ l.length → feedSrcLoop m (l.drop 64) = feedSrcLoop n (l.drop 64) := fun h64 =>
        ih (by simp; omega) (by simp; omega)
      unfold feedSrcLoop
      split
      · rename_i h64
        rw [hrec h64]
      · rfl

/-- `feed_src` depends on the bytes buffered and fed together only. -/
theorem feedSrc_eq_nil (buf c : List Byte) : feedSrc buf c = feedSrc [] (buf ++ c) := rfl

/-- Fewer than 64 bytes stay in the buffer. -/
theorem feedSrc_short {l : List Byte} (h : l.length < 64) : feedSrc [] l = (l, []) := by
  have h64 : ¬ 64 ≤ l.length := by omega
  unfold feedSrc
  cases hl : ([] ++ l).length with
  | zero => rfl
  | succ n => simp [feedSrcLoop, h64]

/-- A partial frame is shorter than a frame: fed nothing, the source's buffer stays as it is (R23). -/
theorem feedSrc_partialFrame_nil (s : State) : feedSrc s.partialFrame [] = (s.partialFrame, []) := by
  rw [feedSrc_eq_nil, List.append_nil, feedSrc_short (by rw [partialFrame_length]; omega)]

/-- 64 bytes are one candidate frame, and the rest is fed on. -/
theorem feedSrc_frame {l : List Byte} (h : 64 ≤ l.length) :
    feedSrc [] l = ((feedSrc [] (l.drop 64)).1, sourceEvent (l.take 64) :: (feedSrc [] (l.drop 64)).2) := by
  obtain ⟨n, hn⟩ : ∃ n, l.length = n + 1 := ⟨l.length - 1, by omega⟩
  have hrest : feedSrcLoop n (l.drop 64) = feedSrc [] (l.drop 64) := feedSrcLoop_fuel (by simp; omega) (by simp)
  rw [← hrest]
  simp [feedSrc, hn, feedSrcLoop, show 64 ≤ n + 1 by omega]

/-- Feeding two chunks is feeding the first, then the second from the buffer the first leaves. -/
theorem feedSrc_append (buf c d : List Byte) :
    feedSrc buf (c ++ d) =
      ((feedSrc (feedSrc buf c).1 d).1, (feedSrc buf c).2 ++ (feedSrc (feedSrc buf c).1 d).2) := by
  rw [feedSrc_eq_nil buf, feedSrc_eq_nil buf, ← List.append_assoc]
  induction buf ++ c using frames_induction with
  | short l h => rw [feedSrc_short h, List.nil_append]; rfl
  | frame l h ih =>
    rw [feedSrc_frame (l := l ++ d) (by simp; omega), List.take_append_of_le_length h,
      List.drop_append_of_le_length h, ih, feedSrc_frame h]
    rfl

/-- The buffer left is the stream without its whole frames (R23). -/
theorem feedSrc_buffer (l : List Byte) : (feedSrc [] l).1 = l.drop (64 * (l.length / 64)) := by
  induction l using frames_induction with
  | short l h => rw [feedSrc_short h, Nat.div_eq_of_lt h]; rfl
  | frame l h ih =>
    rw [feedSrc_frame h, ih, List.drop_drop, List.length_drop]
    congr 1
    omega

/-- There is one event for every 64 bytes (R23). -/
theorem feedSrc_events_length (l : List Byte) : (feedSrc [] l).2.length = l.length / 64 := by
  induction l using frames_induction with
  | short l h => rw [feedSrc_short h, Nat.div_eq_of_lt h]; rfl
  | frame l h ih =>
    rw [feedSrc_frame h, List.length_cons, ih, List.length_drop]
    omega

/-! ## The parser refines the source's algorithm (R150) -/

/-- A candidate's event is the source's, read as R150 says. -/
theorem validate_reads_source (rxbuf : Vector Byte 63) (b : Byte) :
    eventReads (sourceEvent (rxbuf.toList ++ [b])) (validate rxbuf (checksum rxbuf.toList) b) := by
  have hsum : ((memRead (rxbuf.toList ++ [b]) 0 63).map BitVec.toNat).sum % 2 ^ 8 = (checksum rxbuf.toList).toNat := by
    rw [checksum_toNat, memRead_zero, List.take_left' (by simp)]
  have hlast : (rxbuf.toList ++ [b]).getD 63 0 = b := by simp
  have htype : (rxbuf.toList ++ [b]).getD 0 0 = rxbuf[0] := by simp
  have hlen : (rxbuf.toList ++ [b]).getD 1 0 = rxbuf[1] := by simp
  unfold sourceEvent validate
  rw [hsum, hlast, htype, hlen]
  by_cases hc : checksum rxbuf.toList = b
  · by_cases h61 : rxbuf[1].toNat ≤ 61
    · have hpay : memRead (rxbuf.toList ++ [b]) 2 rxbuf[1].toNat = memRead rxbuf.toList 2 rxbuf[1].toNat := by
        simp only [memRead]
        rw [List.drop_append_of_le_length (by simp), List.take_append_of_le_length (by simpa using h61)]
      simp [hc, h61, hpay, eventReads]
    · simp [hc, h61, eventReads, Nat.lt_of_not_le h61]
  · simp [hc, BitVec.toNat_inj, eventReads, RxEvent.checksumMismatch]

/-- A completed candidate frame always has an event (R141). -/
theorem validate_kind_ne_none (rxbuf : Vector Byte 63) (c b : Byte) : (validate rxbuf c b).kind ≠ .none := by
  unfold validate
  split_ifs <;> nofun

@[simp] theorem events_nil : events [] = [] := rfl

theorem events_append (xs ys : List Output) : events (xs ++ ys) = events xs ++ events ys := by simp [events]

theorem events_singleton_noEvent {o : Output} (h : o.rxevt = .noEvent) : events [o] = [] := by
  simp [events, h, RxEvent.noEvent]

theorem events_singleton_event {ev : RxEvent} (h : ev.kind ≠ .none) : events [.event ev] = [ev] := by
  simp [events, Output.event, h]

/-- One accepted byte does what `feed_src` does with it (R141, R150). -/
theorem receiveByte_refines_source (b : Byte) (s : State) :
    (receiveByte b s).1.partialFrame = (feedSrc s.partialFrame [b]).1 ∧
    List.Forall₂ eventReads (feedSrc s.partialFrame [b]).2 (events [.event (receiveByte b s).2]) := by
  have hlen := partialFrame_length s
  rw [feedSrc_eq_nil]
  rcases receiveByte_cases b s with ⟨h, e⟩ | ⟨h, e⟩
  · rw [e, feedSrc_short (by simp; omega), events_singleton_noEvent rfl]
    exact ⟨storeByte_partialFrame s b h, .nil⟩
  · have hframe : (s.partialFrame ++ [b]).length = 64 := by simp; omega
    rw [e, events_singleton_event (validate_kind_ne_none _ _ _), feedSrc_frame hframe.ge,
      List.take_of_length_le hframe.le, List.drop_of_length_le hframe.le, partialFrame_full s h]
    exact ⟨endFrame_partialFrame s, .cons (validate_reads_source _ _) .nil⟩

@[simp] theorem streamBytes_nil : streamBytes [] = [] := rfl

theorem streamBytes_cons (inp : Inputs) (ops : List Inputs) :
    streamBytes (inp :: ops) = streamBytes [inp] ++ streamBytes ops :=
  List.filterMap_append (l := [inp])

theorem streamBytes_acceptedFeed {inp : Inputs} (hd : decode inp.cmd = .op .feedb) (ha : inp.opa.toNat < 2 ^ 8) :
    streamBytes [inp] = [lowByte inp.opa] := by
  simp only [streamBytes, List.filterMap_cons, if_pos (And.intro hd ha), List.filterMap_nil, lowByte]

theorem streamBytes_otherOperation {inp : Inputs} (h : ¬ (decode inp.cmd = .op .feedb ∧ inp.opa.toNat < 2 ^ 8)) :
    streamBytes [inp] = [] := by
  simp only [streamBytes, List.filterMap_cons, if_neg h, List.filterMap_nil]

/-- A step on any operation refines `feed_src` on the byte it feeds, if any. -/
theorem step_operation_refines_source {s : State} {inp : Inputs} {rest : List Stimulus}
    (h : s.pending = .operation inp :: rest) :
    ∃ t o, step s = .next t ∧ t.out = some o ∧ t.pending = rest ∧
      t.partialFrame = (feedSrc s.partialFrame (streamBytes [inp])).1 ∧
      List.Forall₂ eventReads (feedSrc s.partialFrame (streamBytes [inp])).2 (events [o]) := by
  by_cases hf : decode inp.cmd = .op .feedb ∧ inp.opa.toNat < 2 ^ 8
  · obtain ⟨hd, ha⟩ := hf
    obtain ⟨hbuf, hev⟩ := receiveByte_refines_source (lowByte inp.opa) (s.present inp rest)
    rw [streamBytes_acceptedFeed hd ha]
    exact ⟨_, _, step_acceptedFeed h hd ha, rfl, by simp, hbuf, hev⟩
  · obtain ⟨o, ho, hstep⟩ := step_otherOperation h hf
    rw [streamBytes_otherOperation hf, feedSrc_partialFrame_nil]
    refine ⟨_, o, hstep, rfl, rfl, rfl, ?_⟩
    rw [events_singleton_noEvent ho]
    exact .nil

/-- A run of any operations refines `feed_src` on the stream they feed (R23, R150). -/
theorem observe_operations_refines_source (ops : List Inputs) {s : State} {rest : List Stimulus}
    (h : s.pending = ops.map .operation ++ rest) :
    ∃ t os, observe ops.length s = .next (t, os) ∧ t.pending = rest ∧
      t.partialFrame = (feedSrc s.partialFrame (streamBytes ops)).1 ∧
      List.Forall₂ eventReads (feedSrc s.partialFrame (streamBytes ops)).2 (events os) := by
  induction ops generalizing s with
  | nil =>
    rw [streamBytes_nil, feedSrc_partialFrame_nil]
    exact ⟨s, [], rfl, h, rfl, .nil⟩
  | cons inp ops ih =>
    obtain ⟨t, o, hstep, hout, hpend, hbuf, hev⟩ := step_operation_refines_source h
    obtain ⟨u, os, hobs, hpend', hbuf', hev'⟩ := ih hpend
    rw [hbuf] at hbuf' hev'
    rw [streamBytes_cons, feedSrc_append]
    refine ⟨u, _, observe_succ hstep hobs, hpend', hbuf', ?_⟩
    rw [hout, Option.toList_some, events_append]
    exact List.rel_append hev hev'

/-! ## Stream alignment (R23) -/

/-- The bytes received so far are those of RXBUF below RXCNT. -/
theorem partialFrame_getElem? {s : State} {k : Nat} (h : k < s.rxcnt.val) : s.partialFrame[k]? = s.rxbuf[k]? := by
  rw [State.partialFrame, memRead_getElem?, if_pos h, Nat.zero_add, Vector.getElem?_toList]

/-- The reset input takes one step, drives no output and leaves no partial frame (R230). -/
theorem observe_reset {s : State} {rest : List Stimulus} (h : s.pending = .reset :: rest) :
    ∃ t, observe 1 s = .next (t, []) ∧ t.pending = rest ∧ t.partialFrame = [] :=
  ⟨_, observe_succ (step_reset h) (observe_zero _), rfl, by simp [State.partialFrame, memRead]⟩

/-- Settles O41: after the reset the buffer is empty, the operations refine `feed_src` on their stream, and what
`feed_src` leaves of a stream is the stream without its whole frames. -/
theorem streamAlignment : Obligations.StreamAlignment := by
  intro s ops rest hq bs
  obtain ⟨r, hreset, hpend, hempty⟩ := observe_reset hq
  obtain ⟨t, os, hobs, hrest, hbuf, hev⟩ := observe_operations_refines_source ops hpend
  rw [hempty] at hbuf hev
  have htail : t.partialFrame = bs.drop (64 * (bs.length / 64)) := hbuf.trans (feedSrc_buffer bs)
  have hcnt : t.rxcnt.val = bs.length % 64 := by
    rw [← partialFrame_length, htail, List.length_drop]; omega
  refine ⟨t, os, observe_add hreset hobs, hrest, hbuf, hcnt, fun k hk => ?_, ?_⟩
  · rw [← partialFrame_getElem? hk, htail, List.getElem?_drop]
  · rw [← hev.length_eq, feedSrc_events_length]

end Sys2Proof.Machine
end


section
/-! PROOFS. The encoding (spec/30_encoding.md): the command words the decoder refuses (R76), the examples of the
assembler (R79), and what the frame checksum detects and does not detect (R65, R66). -/

namespace Sys2Proof

/-! ## The illegal command words (R76) -/

/-- The fields of R70, by bit position. -/
theorem Fields.ofWord_val (cmd : Word) :
    (Fields.ofWord cmd).op.val = (cmd.extractLsb' 0 4).toNat ∧
    (Fields.ofWord cmd).w.val = (cmd.extractLsb' 4 1).toNat ∧
    (Fields.ofWord cmd).s.val = (cmd.extractLsb' 5 5).toNat ∧
    (Fields.ofWord cmd).e.val = (cmd.extractLsb' 10 5).toNat ∧
    (Fields.ofWord cmd).n.val = (cmd.extractLsb' 15 3).toNat ∧
    (Fields.ofWord cmd).p.val = (cmd.extractLsb' 18 1).toNat ∧
    (Fields.ofWord cmd).len.val = (cmd.extractLsb' 19 6).toNat ∧
    (Fields.ofWord cmd).rsv.val = (cmd.extractLsb' 25 7).toNat := by
  simp [Fields.ofWord, Nat.shiftRight_eq_div_pow]

/-- The bit-field arm refuses a nonzero unused field, indices out of order and, in byte mode, an index above 7. -/
theorem decodeField_illegal_iff (f : Fields) (mk : Width → BitIndex → BitIndex → Instr) :
    decodeField f mk = .illegal ↔
      f.n.val ≠ 0 ∨ f.p.val ≠ 0 ∨ f.len.val ≠ 0 ∨ f.e.val < f.s.val ∨ (f.w.val = 0 ∧ 7 < f.e.val) := by
  simp only [decodeField, ne_eq, ← Fin.val_eq_zero_iff]
  split_ifs with hunused horder hbyte
  · exact iff_of_true rfl (by omega)
  · exact iff_of_true rfl (by omega)
  · exact iff_of_true rfl (by omega)
  · exact iff_of_false nofun (by omega)

/-- The packer arm refuses a nonzero unused field and more than 4 lanes. -/
theorem decodeCount_illegal_iff (f : Fields) (mk : ByteCount → Instr) :
    decodeCount f mk = .illegal ↔
      f.w.val ≠ 0 ∨ f.s.val ≠ 0 ∨ f.e.val ≠ 0 ∨ f.p.val ≠ 0 ∨ f.len.val ≠ 0 ∨ 4 < f.n.val := by
  simp only [decodeCount, ne_eq, ← Fin.val_eq_zero_iff]
  split_ifs with hunused hlanes
  · exact iff_of_true rfl (by omega)
  · exact iff_of_true rfl (by omega)
  · exact iff_of_false nofun (by omega)

/-- The list of R76, on the fields of a command word. -/
theorem decodeFields_illegal_iff (f : Fields) :
    decodeFields f = .illegal ↔
      f.op.val = 0x0 ∨ 0x8 ≤ f.op.val ∨ f.rsv.val ≠ 0 ∨
      (f.op.val = 0x1 ∧
        (f.w.val ≠ 0 ∨ f.s.val ≠ 0 ∨ f.e.val ≠ 0 ∨ f.n.val ≠ 0 ∨ f.p.val ≠ 0 ∨ f.len.val ≠ 0)) ∨
      (f.op.val = 0x2 ∧ (f.w.val ≠ 0 ∨ f.s.val ≠ 0 ∨ f.e.val ≠ 0 ∨ f.n.val ≠ 0)) ∨
      (f.op.val = 0x2 ∧ f.p.val = 0 ∧ f.len.val ≠ 0) ∨
      (f.op.val = 0x2 ∧ f.p.val = 1 ∧ 61 < f.len.val) ∨
      (0x3 ≤ f.op.val ∧ f.op.val ≤ 0x5 ∧
        (f.n.val ≠ 0 ∨ f.p.val ≠ 0 ∨ f.len.val ≠ 0 ∨ f.e.val < f.s.val ∨ (f.w.val = 0 ∧ 7 < f.e.val))) ∨
      (0x6 ≤ f.op.val ∧ f.op.val ≤ 0x7 ∧
        (f.w.val ≠ 0 ∨ f.s.val ≠ 0 ∨ f.e.val ≠ 0 ∨ f.p.val ≠ 0 ∨ f.len.val ≠ 0 ∨ 4 < f.n.val)) := by
  simp only [decodeFields, ne_eq, ← Fin.val_eq_zero_iff]
  by_cases hrsv : f.rsv.val = 0
  case neg => exact iff_of_true (if_pos hrsv) (.inr (.inr (.inl hrsv)))
  rw [if_neg (not_not.2 hrsv)]
  split
  case h_1 h => simp [h, hrsv, imp_iff_not_or]
  case h_2 h =>
    have hp : f.p.val = 0 ∨ f.p.val = 1 := by omega
    obtain hp | hp := hp <;> simp [h, hrsv, hp, imp_iff_not_or, or_assoc]
  case h_3 h | h_4 h | h_5 h => simp [h, hrsv, decodeField_illegal_iff]
  case h_6 h | h_7 h => simp [h, hrsv, decodeCount_illegal_iff]
  case h_8 =>
    simp only [imp_false] at *
    have hop : f.op.val = 0 ∨ 8 ≤ f.op.val := by omega
    exact iff_of_true trivial (hop.imp_right .inl)

/-- Settles O2: the bit ranges of the list are the fields the decoder reads, and on those the list is arm by arm. -/
theorem illegalEncodings : Obligations.IllegalEncodings := by
  intro cmd
  obtain ⟨hop, hw, hs, he, hn, hp, hlen, hrsv⟩ := Fields.ofWord_val cmd
  simp only [← hop, ← hw, ← hs, ← he, ← hn, ← hp, ← hlen, ← hrsv]
  exact decodeFields_illegal_iff (Fields.ofWord cmd)

end Sys2Proof

namespace Sys2Proof.Machine

/-! ## The assembler's examples (R79) -/

/-- Settles O4: each line of the table is assembled. -/
theorem assemblyExamples : Obligations.AssemblyExamples :=
  ⟨rfl, rfl, rfl, rfl, rfl, rfl, rfl, fun _ => rfl, rfl, rfl, fun _ => rfl⟩

/-! ## The checksum of a frame with a changed byte (R62) -/

theorem checksumValid_iff (f : Frame) : checksumValid f = true ↔ f[63] = frameChecksum f := decide_eq_true_iff

theorem checksum_eq_sum (bs : List Byte) : checksum bs = bs.sum := by
  induction bs with
  | nil => rfl
  | cons b bs ih => rw [checksum_cons, List.sum_cons, ih]

theorem frameChecksum_eq_sum (f : Frame) : frameChecksum f = (f.toList.take 63).sum := by
  rw [frameChecksum, memRead_zero, checksum_eq_sum]

/-- A changed byte of CS_RANGE changes the checksum by the difference. -/
theorem frameChecksum_set (f : Frame) (i : Fin 63) (b : Byte) :
    frameChecksum (f.set i.val b) = frameChecksum f + (b - f[i.val]) := by
  have hi : i.val < (f.toList.take 63).length := by simp
  rw [frameChecksum_eq_sum, Vector.toList_set, List.take_set, List.sum_set', dif_pos hi, ← frameChecksum_eq_sum,
    List.getElem_take, Vector.getElem_toList, neg_add_eq_sub]

/-- The checksum byte is not in CS_RANGE. -/
theorem frameChecksum_set_csOffset (f : Frame) (b : Byte) : frameChecksum (f.set 63 b) = frameChecksum f := by
  rw [frameChecksum_eq_sum, frameChecksum_eq_sum, Vector.toList_set, List.take_set_of_le (le_refl 63)]

/-! ## Single-bit sensitivity (R65) -/

/-- A valid frame with one byte changed, the checksum byte or another, is not valid. -/
theorem checksumValid_set_of_ne {f : Frame} (hf : checksumValid f = true) (j : Fin 64) {b : Byte} (hb : b ≠ f[j.val]) :
    checksumValid (f.set j.val b) = false := by
  rw [← Bool.not_eq_true, checksumValid_iff]
  rw [checksumValid_iff] at hf
  by_cases hj : j.val = 63
  · simp only [hj] at hb ⊢
    rw [Vector.getElem_set_self, frameChecksum_set_csOffset, ← hf]
    exact hb
  · rw [Vector.getElem_set_ne _ _ hj, frameChecksum_set f ⟨j.val, by omega⟩ b, hf, left_eq_add, sub_eq_zero]
    exact hb

/-- A flipped bit changes the byte. -/
theorem xor_bit_ne_self (b : Byte) (k : Fin 8) : b ^^^ (1#8 <<< k.val) ≠ b := by
  have hbit : 1#8 <<< k.val ≠ 0 := by revert k; decide
  rwa [← BitVec.xor_zero (x := b), BitVec.xor_assoc, BitVec.zero_xor, Ne, BitVec.xor_right_inj]

/-- Settles O36: a flipped bit changes its byte, and only that byte. -/
theorem singleBitSensitivity : Obligations.SingleBitSensitivity :=
  fun f j k hf => checksumValid_set_of_ne hf j (xor_bit_ne_self f[j.val] k)

/-! ## Limits of the checksum (R66) -/

/-- Two bytes of CS_RANGE changed to bytes of the same sum leave the frame valid. -/
theorem checksumValid_set_set {f : Frame} (hf : checksumValid f = true) {i j : Fin 63} (hij : i ≠ j) {x y : Byte}
    (hxy : x + y = f[i.val] + f[j.val]) : checksumValid ((f.set i.val x).set j.val y) = true := by
  have hne : i.val ≠ j.val := Fin.val_ne_of_ne hij
  rw [checksumValid_iff] at hf ⊢
  rw [frameChecksum_set, frameChecksum_set, Vector.getElem_set_ne _ _ (by omega), Vector.getElem_set_ne _ _ (by omega),
    Vector.getElem_set_ne _ _ hne, hf]
  have hdiff : x - f[i.val] + (y - f[j.val]) = 0 := by rw [sub_add_sub_comm, hxy, sub_self]
  rw [add_assoc, hdiff, add_zero]

/-- Flipping the top bit of a byte adds 2^7. -/
theorem xor_topBit (b : Byte) : b ^^^ (1#8 <<< 7) = b + 128 := by
  revert b; decide

/-- Settles O37: the exchange, the moved difference and the two flipped top bits keep the sum of the two bytes. -/
theorem checksumLimits : Obligations.ChecksumLimits := by
  refine ⟨fun f i j hf => ?_, fun f i j d hf hij => ?_, fun f i j hf hij => ?_, by decide⟩
  · by_cases hij : i = j
    · subst hij
      rwa [Vector.set_getElem_self, Vector.set_getElem_self]
    · exact checksumValid_set_set hf hij (add_comm _ _)
  · exact checksumValid_set_set hf hij (add_add_sub_cancel _ _ _)
  · refine checksumValid_set_set hf hij ?_
    have hkept : (flipBit f ⟨i.val, by omega⟩ 7)[j.val] = f[j.val] :=
      Vector.getElem_set_ne _ _ (Fin.val_ne_of_ne hij)
    have hcarry : (128 : Byte) + 128 = 0 := by decide
    calc (f[i.val] ^^^ (1#8 <<< 7)) + ((flipBit f ⟨i.val, by omega⟩ 7)[j.val] ^^^ (1#8 <<< 7))
        = (f[i.val] + 128) + (f[j.val] + 128) := by rw [hkept, xor_topBit, xor_topBit]
      _ = f[i.val] + f[j.val] := by rw [add_add_add_comm, hcarry, add_zero]

end Sys2Proof.Machine
end

section
/-! PROOFS. The bit-field operations (spec/40_bitfield.md): the word each completes with, the bits of that word, and the
laws of R105 and R106, which are read off the bits. -/

namespace Sys2Proof.Machine

/-- RES of an EXTRACT that completes (R102). -/
def extracted (s e : BitIndex) (v : Word) : Word := BitVec.ofNat 32 (extractField v.toNat s.val e.val)

/-- RES of an INSERT that completes (R103). -/
def inserted (w : Width) (s e : BitIndex) (v x : Word) : Word :=
  BitVec.ofNat 32 (insertField (operandBits w) v.toNat s.val e.val x.toNat)

/-! ## Operands in range and the extracted word as a number -/

/-- An operand in range is below 2 to the operand width. -/
theorem toNat_lt_of_inRange {w : Width} {v : Word} (hv : w = .byte → v.toNat < 2 ^ 8) : v.toNat < 2 ^ operandBits w := by
  rw [← operandValue_eq hv]
  exact operandValue_lt w v

@[simp] theorem extracted_toNat (s e : BitIndex) (v : Word) :
    (extracted s e v).toNat = extractField v.toNat s.val e.val := by
  have hle : extractField v.toNat s.val e.val ≤ v.toNat := Nat.and_le_left.trans (Nat.shiftRight_le _ _)
  exact Nat.mod_eq_of_lt (hle.trans_lt v.isLt)

/-! ## What each operation completes with -/

/-- EXTRACT of a legal field completes with the field's word. -/
theorem exec_extract {w : Width} {s e : BitIndex} {st : State} (hf : w.fieldOk s e = true)
    (hv : w = .byte → st.port.opa.toNat < 2 ^ 8) :
    exec (.extract w s e) st = complete (.scalar (extracted s e st.port.opa)) st := by
  simp only [exec, execExtract, legalField_eq, admits_iff, if_pos hf, if_pos hv, operandValue_eq hv, extracted]

/-- INSERT into a legal field completes with the merged word. -/
theorem exec_insert {w : Width} {s e : BitIndex} {st : State} (hf : w.fieldOk s e = true)
    (hv : w = .byte → st.port.opa.toNat < 2 ^ 8) :
    exec (.insert w s e) st = complete (.scalar (inserted w s e st.port.opa st.port.opb)) st := by
  simp only [exec, execInsert, legalField_eq, admits_iff, if_pos hf, if_pos hv, operandValue_eq hv, inserted]

/-- ISMOD of a legal field completes with 1 where the extracted words differ, and with 0 where they agree. -/
theorem exec_ismod {w : Width} {s e : BitIndex} {st : State} (hf : w.fieldOk s e = true)
    (hv : w = .byte → st.port.opa.toNat < 2 ^ 8) (hr : w = .byte → st.port.opb.toNat < 2 ^ 8) :
    exec (.ismod w s e) st =
      complete (.scalar (if extracted s e st.port.opa ≠ extracted s e st.port.opb then 1 else 0)) st := by
  simp only [exec, execIsmod, legalField_eq, admits_iff, if_pos hf, if_pos hv, if_pos hr, operandValue_eq hv,
    operandValue_eq hr, ne_eq, ← BitVec.toNat_inj, extracted_toNat]

/-- An operation that completes with a word has it on RES. -/
theorem resOf_outputOf_scalar {i : Instr} {st : State} {opa opb r : Word} {bs : List Byte}
    (h : exec i { st with port := ⟨encode i, opa, opb, toPayin bs⟩ } =
      complete (.scalar r) { st with port := ⟨encode i, opa, opb, toPayin bs⟩ }) :
    resOf (outputOf i st opa opb bs) = some r := by
  rw [outputOf, h]
  rfl

theorem resOf_extract {w : Width} {s e : BitIndex} {v : Word} (hf : w.fieldOk s e = true)
    (hv : w = .byte → v.toNat < 2 ^ 8) (st : State) (y : Word) :
    resOf (outputOf (.extract w s e) st v y []) = some (extracted s e v) :=
  resOf_outputOf_scalar (exec_extract hf hv)

theorem resOf_insert {w : Width} {s e : BitIndex} {v : Word} (hf : w.fieldOk s e = true)
    (hv : w = .byte → v.toNat < 2 ^ 8) (st : State) (x : Word) :
    resOf (outputOf (.insert w s e) st v x []) = some (inserted w s e v x) :=
  resOf_outputOf_scalar (exec_insert hf hv)

theorem resOf_ismod {w : Width} {s e : BitIndex} {v r : Word} (hf : w.fieldOk s e = true)
    (hv : w = .byte → v.toNat < 2 ^ 8) (hr : w = .byte → r.toNat < 2 ^ 8) (st : State) :
    resOf (outputOf (.ismod w s e) st v r []) = some (if extracted s e v ≠ extracted s e r then 1 else 0) :=
  resOf_outputOf_scalar (exec_ismod hf hv hr)

/-! ## The bits of the results -/

/-- Bit `k` of an extracted word is bit `s + k` of the operand inside the field, and 0 above it. -/
theorem extracted_getLsbD (s e : BitIndex) (v : Word) (k : Nat) :
    (extracted s e v).getLsbD k = (decide (k < e.val - s.val + 1) && v.getLsbD (s.val + k)) := by
  rw [← BitVec.testBit_toNat, extracted_toNat, extractField_testBit, BitVec.testBit_toNat]

section
variable {w : Width} {s e : BitIndex} {v : Word} (hf : w.fieldOk s e = true) (hv : w = .byte → v.toNat < 2 ^ 8)
include hf hv

theorem insertField_lt_of_inRange (x : Word) :
    insertField (operandBits w) v.toNat s.val e.val x.toNat < 2 ^ operandBits w := by
  obtain ⟨hse, he⟩ := (fieldOk_iff w s e).1 hf
  exact insertField_lt x.toNat (toNat_lt_of_inRange hv) hse he

theorem inserted_toNat (x : Word) :
    (inserted w s e v x).toNat = insertField (operandBits w) v.toNat s.val e.val x.toNat :=
  Nat.mod_eq_of_lt ((insertField_lt_of_inRange hf hv x).trans_le (Nat.pow_le_pow_right (by decide) (operandBits_le w)))

/-- An inserted word is below 2 to the operand width (R106). -/
theorem inserted_lt (x : Word) : (inserted w s e v x).toNat < 2 ^ operandBits w := by
  rw [inserted_toNat hf hv]
  exact insertField_lt_of_inRange hf hv x

/-- In byte mode an inserted word is a byte, so it is in range as the next operand. -/
theorem inserted_inRange (x : Word) : w = .byte → (inserted w s e v x).toNat < 2 ^ 8 := by
  rintro rfl
  exact inserted_lt hf hv x

/-- Inside the field the bits of an inserted word are the low bits of `x`, outside they are those of `v`. -/
theorem inserted_getLsbD (x : Word) (k : Nat) :
    (inserted w s e v x).getLsbD k =
      if s.val ≤ k ∧ k ≤ e.val then x.getLsbD (k - s.val) else v.getLsbD k := by
  obtain ⟨hse, he⟩ := (fieldOk_iff w s e).1 hf
  rw [← BitVec.testBit_toNat, inserted_toNat hf hv, insertField_testBit x.toNat k (toNat_lt_of_inRange hv) hse he,
    BitVec.testBit_toNat, BitVec.testBit_toNat]

/-! ## The laws, bit by bit (R105, R106) -/

/-- The extracted field of an insertion is the inserted word's low bits (R105). -/
theorem extracted_inserted (x : Word) :
    extracted s e (inserted w s e v x) = x &&& BitVec.ofNat 32 (2 ^ (e.val - s.val + 1) - 1) := by
  obtain ⟨hse, -⟩ := (fieldOk_iff w s e).1 hf
  apply BitVec.eq_of_getLsbD_eq
  intro k hk
  rw [extracted_getLsbD, inserted_getLsbD hf hv, BitVec.getLsbD_and, BitVec.getLsbD_ofNat,
    Nat.testBit_two_pow_sub_one, decide_eq_true hk, Bool.true_and, Bool.and_comm]
  by_cases hfield : k < e.val - s.val + 1
  · rw [if_pos (by omega), Nat.add_sub_cancel_left]
  · rw [decide_eq_false hfield, Bool.and_false, Bool.and_false]

/-- Inserting the extracted field changes nothing (R106 (a)). -/
theorem inserted_extracted : inserted w s e v (extracted s e v) = v := by
  apply BitVec.eq_of_getLsbD_eq
  intro k _
  rw [inserted_getLsbD hf hv]
  split_ifs with hfield
  · obtain ⟨hs, he⟩ := hfield
    rw [extracted_getLsbD, decide_eq_true (by omega), Bool.true_and, Nat.add_sub_cancel' hs]
  · rfl

/-- An insertion leaves every disjoint field (R106 (b)). -/
theorem extracted_inserted_of_disjoint {s' e' : BitIndex} (hse' : s'.val ≤ e'.val)
    (hdisj : e.val < s'.val ∨ e'.val < s.val) (x : Word) :
    extracted s' e' (inserted w s e v x) = extracted s' e' v := by
  apply BitVec.eq_of_getLsbD_eq
  intro k _
  rw [extracted_getLsbD, extracted_getLsbD, inserted_getLsbD hf hv]
  by_cases hfield : k < e'.val - s'.val + 1
  · rw [if_neg (by omega)]
  · rw [decide_eq_false hfield, Bool.false_and, Bool.false_and]

/-- A second insertion into a field overwrites the first (R106 (c)). -/
theorem inserted_inserted (x y : Word) : inserted w s e (inserted w s e v x) y = inserted w s e v y := by
  apply BitVec.eq_of_getLsbD_eq
  intro k _
  rw [inserted_getLsbD hf (inserted_inRange hf hv x), inserted_getLsbD hf hv, inserted_getLsbD hf hv]
  split_ifs <;> rfl

end

/-! ## The obligations -/

/-- Settles O28: both operations complete, and the law is the one of their words. -/
theorem insertThenExtract : Obligations.InsertThenExtract := by
  intro w s e st v x y hf hv
  refine ⟨inserted w s e v x, resOf_insert hf hv st x, ?_⟩
  rw [resOf_extract hf (inserted_inRange hf hv x), extracted_inserted hf hv]

/-- Settles O29: every operation in the laws completes, and each law is one of the words they complete with. -/
theorem bitFieldLaws : Obligations.BitFieldLaws := by
  intro w s e st v hf hv extract insert
  have hextract (r : Word) (hr : w = .byte → r.toNat < 2 ^ 8) {s' e' : BitIndex} (hf' : w.fieldOk s' e' = true) :
      extract r s' e' = some (extracted s' e' r) := resOf_extract hf' hr st 0
  have hinsert (r : Word) (hr : w = .byte → r.toNat < 2 ^ 8) (x : Word) :
      insert r x = some (inserted w s e r x) := resOf_insert hf hr st x
  refine ⟨?_, fun x s' e' hf' hdisj => ?_, fun x y => ?_, fun r hr => ?_, fun x r hr => ?_⟩
  · rw [hextract v hv hf, Option.bind_some, hinsert v hv, inserted_extracted hf hv]
  · obtain ⟨hse', -⟩ := (fieldOk_iff w s' e').1 hf'
    rw [hinsert v hv, Option.bind_some, hextract _ (inserted_inRange hf hv x) hf', hextract v hv hf',
      extracted_inserted_of_disjoint hf hv hse' hdisj]
    exact ⟨rfl, rfl⟩
  · rw [hinsert v hv, Option.bind_some, hinsert _ (inserted_inRange hf hv x), hinsert v hv, inserted_inserted hf hv]
    exact ⟨rfl, rfl⟩
  · rw [resOf_ismod hf hv hr, hextract v hv hf, hextract r hr hf, Option.some_inj, (Option.some_injective _).ne_iff]
    split_ifs with hdiff
    · exact iff_of_true rfl hdiff
    · exact iff_of_false (by decide) hdiff
  · obtain rfl : inserted w s e v x = r := Option.some_inj.1 ((hinsert v hv x).symm.trans hr)
    cases w with
    | byte | grouped => exact inserted_lt hf hv x

end Sys2Proof.Machine
end

section
/-! PROOFS. The register packer (spec/41_multibyte.md): what COMBINE and SPLIT complete with, and the round-trip laws of
R123, by induction on the bytes with the lowest byte taken off first. -/

namespace Sys2Proof.Machine

/-! ## The lowest byte of a value (R44) -/

/-- The bytes of a value are its low byte and the bytes of the value shifted down by one byte. -/
theorem splitBytes_succ (n : Nat) (v : Word) : splitBytes (n + 1) v = lowByte v :: splitBytes n (v >>> 8) := by
  have h255 : (0xFF : Nat) = 2 ^ 8 - 1 := by decide
  simp only [splitBytes, List.range_succ_eq_map, List.map_cons, List.map_map, h255, Nat.and_two_pow_sub_one_eq_mod]
  congr 1
  · apply BitVec.eq_of_toNat_eq
    simp [lowByte]
  · refine List.map_congr_left fun i _ => ?_
    rw [Function.comp_apply, BitVec.toNat_ushiftRight, ← Nat.shiftRight_add, Nat.mul_succ, Nat.add_comm 8]

/-- The value of the low `n` bytes of `v` is `v` modulo 2^(8n) (R123). -/
theorem combineBytes_splitBytes (n : Nat) (v : Word) : combineBytes (splitBytes n v) = v.toNat % 2 ^ (8 * n) := by
  induction n generalizing v with
  | zero => simp [splitBytes, Nat.mod_one]
  | succ n ih =>
    rw [splitBytes_succ, combineBytes_cons, ih, BitVec.toNat_ushiftRight, Nat.shiftRight_eq_div_pow, lowByte,
      BitVec.toNat_setWidth, Nat.mul_succ, Nat.add_comm (8 * n), Nat.pow_add, Nat.mod_mul]

/-- A word that holds the value of `bs` has `bs` as its low bytes (R123). -/
theorem splitBytes_of_toNat_eq {bs : List Byte} {r : Word} (h : r.toNat = combineBytes bs) :
    splitBytes bs.length r = bs := by
  induction bs generalizing r with
  | nil => rfl
  | cons b bs ih =>
    rw [combineBytes_cons] at h
    have := b.isLt
    have hlow : lowByte r = b := by
      apply BitVec.eq_of_toNat_eq
      rw [lowByte, BitVec.toNat_setWidth]; omega
    have hhigh : (r >>> 8).toNat = combineBytes bs := by
      rw [BitVec.toNat_ushiftRight, Nat.shiftRight_eq_div_pow]; omega
    rw [List.length_cons, splitBytes_succ, hlow, ih hhigh]

/-- Up to 4 bytes have a value that a word holds (R124). -/
theorem ofNat_combineBytes_toNat {bs : List Byte} (h : bs.length ≤ 4) :
    (BitVec.ofNat 32 (combineBytes bs)).toNat = combineBytes bs :=
  Nat.mod_eq_of_lt ((combineBytes_lt bs).trans_le (Nat.pow_le_pow_right (by decide) (by omega)))

/-! ## What each operation completes with -/

/-- Bytes presented on PAYIN are the bytes an operation reads there. -/
theorem payinBytes_toPayin {bs : List Byte} (h : bs.length ≤ 61) (cmd opa opb : Word) :
    payinBytes ⟨cmd, opa, opb, toPayin bs⟩ bs.length = bs := by
  apply List.ext_getElem?
  intro k
  rw [payinBytes, memRead_getElem?, Nat.zero_add, Vector.getElem?_toList, toPayin, memWrite_getElem?]
  by_cases hk : k < bs.length
  · rw [if_pos hk, if_pos (by omega), Nat.sub_zero]
  · rw [if_neg hk, List.getElem?_eq_none (by omega)]

/-- COMBINE of a legal count completes with the value of the bytes it reads (R121). -/
theorem exec_combine {n : ByteCount} (hn : n.val ≤ 4) (st : State) :
    exec (.combine n) st = complete (.scalar (BitVec.ofNat 32 (combineBytes (payinBytes st.port n.val)))) st :=
  if_pos ((legalCount_iff n).2 hn)

/-- SPLIT of a legal count completes with the low bytes of OPA (R122). -/
theorem exec_split {n : ByteCount} (hn : n.val ≤ 4) (st : State) :
    exec (.split n) st = complete (.bytes (splitBytes n.val st.port.opa)) st :=
  if_pos ((legalCount_iff n).2 hn)

/-- An operation that completes with bytes has them on RESBYTES. -/
theorem resbytesOf_outputOf_bytes {i : Instr} {st : State} {opa opb : Word} {bs res : List Byte}
    (h : exec i { st with port := ⟨encode i, opa, opb, toPayin bs⟩ } =
      complete (.bytes res) { st with port := ⟨encode i, opa, opb, toPayin bs⟩ }) :
    resbytesOf (outputOf i st opa opb bs) = some res := by
  rw [outputOf, h]
  rfl

theorem resOf_combine {n : ByteCount} (hn : n.val ≤ 4) {bs : List Byte} (hbs : bs.length = n.val) (st : State) :
    resOf (outputOf (.combine n) st 0 0 bs) = some (BitVec.ofNat 32 (combineBytes bs)) := by
  rw [resOf_outputOf_scalar (exec_combine hn _), ← hbs, payinBytes_toPayin (by omega)]

theorem resbytesOf_split {n : ByteCount} (hn : n.val ≤ 4) (st : State) (v : Word) :
    resbytesOf (outputOf (.split n) st v 0 []) = some (splitBytes n.val v) :=
  resbytesOf_outputOf_bytes (exec_split hn _)

/-! ## The obligation -/

/-- Settles O32: both operations complete, and each law is the one of the bytes and the value they complete with. -/
theorem packerRoundTrip : Obligations.PackerRoundTrip := by
  intro n st hn
  refine ⟨fun bs hbs => ⟨_, resOf_combine hn hbs st, ?_⟩, fun v => ⟨_, resbytesOf_split hn st v, ?_⟩⟩
  · rw [resbytesOf_split hn, ← hbs, splitBytes_of_toNat_eq (ofNat_combineBytes_toNat (by omega))]
  · rw [resOf_combine hn (splitBytes_length n.val v), combineBytes_splitBytes]

end Sys2Proof.Machine
end

section
/-! PROOFS. The frame parser (spec/42_frame_parser.md): the event that ends a candidate frame (R141 to R145), feeding a
chunk, compared with the source's `feed_src` and with another cut of the stream (R150, R151), and built frames fed back
(R152, R153). -/

namespace Sys2Proof.Machine

/-! ## The event of a complete candidate frame (R142, R143, R145) -/

theorem validate_mismatch {rxbuf : Vector Byte 63} {c b : Byte} (h : c ≠ b) :
    validate rxbuf c b = .checksumMismatch c b :=
  if_pos h

theorem validate_overrange {rxbuf : Vector Byte 63} (b : Byte) (h : 61 < rxbuf[1].toNat) :
    validate rxbuf b b = .lengthOverrange rxbuf[0] rxbuf[1] :=
  (if_neg (not_not.2 rfl)).trans (if_pos h)

theorem validate_frameOk {rxbuf : Vector Byte 63} (b : Byte) (h : rxbuf[1].toNat ≤ 61) :
    validate rxbuf b b = .frameOk rxbuf[0] rxbuf[1] (memRead rxbuf.toList 2 rxbuf[1].toNat) :=
  (if_neg (not_not.2 rfl)).trans (if_neg (Nat.not_lt.2 h))

theorem receiveByte_of_full {s : State} (b : Byte) (h : s.rxcnt.val = 63) :
    receiveByte b s = (s.endFrame, validate s.rxbuf (checksum s.rxbuf.toList) b) :=
  dif_neg (by omega)

/-- Settles O39: byte 63 ends the frame, and its event is the one of the first test of R142 and R143 that fails, or
FRAME_OK. -/
theorem feedbCompletesFrame : Obligations.FeedbCompletesFrame := by
  intro s ha hcnt
  refine ⟨validate s.rxbuf (checksum s.rxbuf.toList) (lowByte s.port.opa), ?_, ?_⟩
  · rw [exec_feedb_byte ha, receiveByte_of_full _ (congrArg Fin.val hcnt)]
    rfl
  · intro c
    have hc : c = (checksum s.rxbuf.toList).toNat := (checksum_toNat _).symm
    have hagree : checksum s.rxbuf.toList = lowByte s.port.opa ↔ c = s.port.opa.toNat := by
      rw [← BitVec.toNat_inj, lowByte_toNat ha, hc]
    refine ⟨fun hne => ?_, fun heq hlen => ?_, fun heq hlen => ?_⟩
    · rw [validate_mismatch (mt hagree.1 hne), hc, BitVec.ofNat_toNat, BitVec.setWidth_eq]
      rfl
    · rw [hagree.2 heq, validate_overrange _ hlen]
      rfl
    · rw [hagree.2 heq, validate_frameOk _ hlen]
      refine ⟨_, rfl, ?_, fun k hk => ?_⟩
      · rw [memRead_length, Vector.length_toList]; omega
      · rw [memRead_getElem?, if_pos hk, Vector.getElem?_toList]

/-! ## Feeding a chunk (R78, R150) -/

/-- Stimuli that feed a chunk are operations whose stream is the chunk. -/
theorem Feeds.exists_operations {c : List Byte} {q : List Stimulus} (h : Feeds c q) :
    ∃ ops : List Inputs, q = ops.map .operation ∧ ops.length = c.length ∧ streamBytes ops = c := by
  induction c generalizing q with
  | nil =>
    cases q with
    | nil => exact ⟨[], rfl, rfl, rfl⟩
    | cons x xs => exact h.elim
  | cons b bs ih =>
    rcases q with _ | ⟨inp | _, xs⟩
    · exact h.elim
    · obtain ⟨⟨hcmd, hopa⟩, hrest⟩ := h
      obtain ⟨ops, rfl, hlen, hstream⟩ := ih hrest
      have hd : decode inp.cmd = .op .feedb := by rw [hcmd]; decide
      have ha : inp.opa.toNat < 2 ^ 8 := by rw [hopa]; exact setWidth_lt b
      refine ⟨inp :: ops, rfl, congrArg (· + 1) hlen, ?_⟩
      rw [streamBytes_cons, streamBytes_acceptedFeed hd ha, hstream, hopa, lowByte_setWidth, List.singleton_append]
    · exact h.1.elim

/-- Settles O42: the chunk is the stream of its FEEDBs, and any operations refine `feed_src` on their stream. -/
theorem feedRefinesSource : Obligations.FeedRefinesSource := by
  intro s c q rest hf hq
  obtain ⟨ops, rfl, hlen, rfl⟩ := hf.exists_operations
  rw [← hlen]
  exact observe_operations_refines_source ops hq

theorem Feeds.eq_nil {q : List Stimulus} (h : Feeds [] q) : q = [] := by
  cases q with
  | nil => rfl
  | cons x xs => exact h.elim

/-- The first step on stimuli that feed a byte receives it, in a state with the same partial frame and the others left
in the queue. -/
theorem step_feeds_cons {s : State} {b : Byte} {bs : List Byte} {q rest : List Stimulus} (hf : Feeds (b :: bs) q)
    (hq : s.pending = q ++ rest) :
    ∃ r xs, Feeds bs xs ∧ r.pending = xs ++ rest ∧ r.partialFrame = s.partialFrame ∧
      step s = .next ((receiveByte b r).1.setOut (.event (receiveByte b r).2)) := by
  cases q with
  | nil => exact hf.elim
  | cons x xs =>
    obtain ⟨inp, hstep⟩ := step_feed hq hf.1
    exact ⟨s.present inp (xs ++ rest), xs, hf.2, rfl, rfl, hstep⟩

/-! ## Two states with one partial frame (R151) -/

/-- A received byte's event and the partial frame after it depend on the partial frame before it only (R21). -/
theorem receiveByte_congr (b : Byte) {s s' : State} (h : s.partialFrame = s'.partialFrame) :
    (receiveByte b s).2 = (receiveByte b s').2 ∧
      (receiveByte b s).1.partialFrame = (receiveByte b s').1.partialFrame := by
  have hcnt : s.rxcnt.val = s'.rxcnt.val := by rw [← partialFrame_length, h, partialFrame_length]
  rcases receiveByte_cases b s with ⟨hlt, e⟩ | ⟨hfull, e⟩
  · rcases receiveByte_cases b s' with ⟨hlt', e'⟩ | ⟨hfull', -⟩
    · rw [e, e']
      exact ⟨rfl, by rw [storeByte_partialFrame, storeByte_partialFrame, h]⟩
    · omega
  · have hfull' : s'.rxcnt.val = 63 := by omega
    have hbuf : s.rxbuf = s'.rxbuf := by
      rwa [partialFrame_full s hfull, partialFrame_full s' hfull', Vector.toList_inj] at h
    rw [e, receiveByte_of_full b hfull', hbuf]
    exact ⟨rfl, by rw [endFrame_partialFrame, endFrame_partialFrame]⟩

/-- One byte stream fed from two states with the same partial frame gives the same events and the same partial frame. -/
theorem observe_feeds_congr (bs : List Byte) {s s' : State} {q q' rest rest' : List Stimulus} (hf : Feeds bs q)
    (hf' : Feeds bs q') (hq : s.pending = q ++ rest) (hq' : s'.pending = q' ++ rest')
    (h : s.partialFrame = s'.partialFrame) :
    ∃ t os t' os', observe bs.length s = .next (t, os) ∧ observe bs.length s' = .next (t', os') ∧
      events os = events os' ∧ t.partialFrame = t'.partialFrame := by
  induction bs generalizing s s' q q' with
  | nil => exact ⟨s, [], s', [], rfl, rfl, rfl, h⟩
  | cons b bs ih =>
    obtain ⟨r, xs, hxs, hpend, hsame, hstep⟩ := step_feeds_cons hf hq
    obtain ⟨r', xs', hxs', hpend', hsame', hstep'⟩ := step_feeds_cons hf' hq'
    obtain ⟨hev, hbuf⟩ := receiveByte_congr b ((hsame.trans h).trans hsame'.symm)
    obtain ⟨t, os, t', os', hobs, hobs', hevs, hend⟩ :=
      ih (s := (receiveByte b r).1.setOut _) (s' := (receiveByte b r').1.setOut _) hxs hxs'
        (by simpa using hpend) (by simpa using hpend') hbuf
    refine ⟨t, _, t', _, observe_succ hstep hobs, observe_succ hstep' hobs', ?_, hend⟩
    rw [events_append, events_append, hevs, State.setOut_out, State.setOut_out, hev]

/-- Settles O43: both cuts are the same stream, fed from states with the same partial frame. -/
theorem chunkBoundaryIndependence : Obligations.ChunkBoundaryIndependence := by
  intro s s' cs ds q q' rest rest' hcut hf hf' hq hq' h
  rw [← hcut] at hf' ⊢
  exact observe_feeds_congr cs.flatten hf hf' hq hq' h

/-! ## Feeding a whole candidate frame (R141) -/

/-- The requester's next `n` operations report no event, the one after them reports `ev` and ends the candidate frame,
and `rest` is then left in the queue. -/
def EndsCandidate (s : State) (n : Nat) (rest : List Stimulus) (ev : RxEvent) : Prop :=
  ∃ t os, observe (n + 1) s = .next (t, os ++ [.event ev]) ∧ t.rxcnt = 0 ∧ t.pending = rest ∧
    os.length = n ∧ ∀ x ∈ os, x.rxevt = .noEvent

theorem EndsCandidate.zero_of_step {s t : State} {rest : List Stimulus} {ev : RxEvent} (hstep : step s = .next t)
    (hout : t.out = some (.event ev)) (hcnt : t.rxcnt = 0) (hpend : t.pending = rest) :
    EndsCandidate s 0 rest ev := by
  refine ⟨t, [], ?_, hcnt, hpend, rfl, nofun⟩
  rw [observe_succ hstep (observe_zero t), hout]
  rfl

theorem EndsCandidate.succ_of_step {s t : State} {n : Nat} {rest : List Stimulus} {ev : RxEvent}
    (hstep : step s = .next t) (hout : t.out = some (.event .noEvent)) (h : EndsCandidate t n rest ev) :
    EndsCandidate s (n + 1) rest ev := by
  obtain ⟨u, os, hobs, hcnt, hpend, hlen, hnone⟩ := h
  refine ⟨u, .event .noEvent :: os, ?_, hcnt, hpend, congrArg (· + 1) hlen,
    List.forall_mem_cons.2 ⟨rfl, hnone⟩⟩
  rw [observe_succ hstep hobs, hout]
  rfl

/-- Outputs without an event do not show in the events of a run. -/
theorem events_eq_nil {os : List Output} (h : ∀ x ∈ os, x.rxevt = .noEvent) : events os = [] := by
  induction os with
  | nil => rfl
  | cons o os ih =>
    obtain ⟨ho, hos⟩ := List.forall_mem_cons.1 h
    rw [← List.singleton_append, events_append, events_singleton_noEvent ho, ih hos, List.append_nil]

/-- Bytes that fill the partial frame up to 63, and one more, end the candidate frame with its event. -/
theorem endsCandidate_of_feeds (bs : List Byte) {s : State} {b : Byte} {q rest : List Stimulus} {rxbuf : Vector Byte 63}
    (hbuf : s.partialFrame ++ bs = rxbuf.toList) (hf : Feeds (bs ++ [b]) q) (hq : s.pending = q ++ rest) :
    EndsCandidate s bs.length rest (validate rxbuf (checksum rxbuf.toList) b) := by
  induction bs generalizing s q with
  | nil =>
    obtain ⟨r, xs, hxs, hpend, hsame, hstep⟩ := step_feeds_cons (bs := []) hf hq
    obtain rfl := hxs.eq_nil
    rw [List.append_nil, ← hsame] at hbuf
    have hfull : r.rxcnt.val = 63 := by rw [← partialFrame_length, hbuf, Vector.length_toList]
    obtain rfl : r.rxbuf = rxbuf := by rwa [partialFrame_full r hfull, Vector.toList_inj] at hbuf
    rw [receiveByte_of_full b hfull] at hstep
    exact .zero_of_step hstep rfl rfl hpend
  | cons a bs ih =>
    obtain ⟨r, xs, hxs, hpend, hsame, hstep⟩ := step_feeds_cons hf hq
    rw [← hsame] at hbuf
    have hlen := congrArg List.length hbuf
    rw [List.length_append, partialFrame_length, List.length_cons, Vector.length_toList] at hlen
    rcases receiveByte_cases a r with ⟨hlt, e⟩ | ⟨hfull, -⟩
    · rw [e] at hstep
      refine .succ_of_step hstep rfl (ih ?_ hxs hpend)
      rw [setOut_partialFrame, storeByte_partialFrame, List.append_assoc, List.singleton_append, hbuf]
    · omega

theorem frame_toList_eq (f : Frame) : f.toList = f.pop.toList ++ [f[63]] := by
  conv_lhs => rw [← Vector.push_pop_back f]
  rw [Vector.toList_push, Vector.back_eq_getElem]

theorem frameChecksum_eq_checksum_pop (f : Frame) : frameChecksum f = checksum f.pop.toList := by
  rw [frameChecksum, memRead_zero, frame_toList_eq, List.take_left' (by simp)]

/-- A frame fed from RXCNT = 0 gives 63 NONE events and then the event of its own checksum and byte 63. -/
theorem endsCandidate_of_feeds_frame {s : State} {f : Frame} {q rest : List Stimulus} (h0 : s.rxcnt = 0)
    (hf : Feeds f.toList q) (hq : s.pending = q ++ rest) :
    EndsCandidate s 63 rest (validate f.pop (frameChecksum f) f[63]) := by
  have hempty : s.partialFrame = [] := List.length_eq_zero_iff.1 (by rw [partialFrame_length, h0]; rfl)
  have hlen : f.pop.toList.length = 63 := Vector.length_toList
  rw [frame_toList_eq] at hf
  have h := endsCandidate_of_feeds f.pop.toList (by rw [hempty, List.nil_append]) hf hq
  rwa [hlen, ← frameChecksum_eq_checksum_pop] at h

/-! ## Built frames fed back (R152, R153) -/

/-- Byte 63 of a built frame is the checksum of the others (R171). -/
theorem buildFrame_checksumValid (t : Byte) (payload : Option (List Byte)) :
    checksumValid (buildFrame t payload) = true := by
  rw [checksumValid_iff]
  unfold buildFrame
  rw [frameChecksum_set_csOffset, Vector.getElem_set_self]

theorem buildFrame_pop_toList (t : Byte) {p : List Byte} (hp : p.length ≤ 61) :
    (buildFrame t (some p)).pop.toList =
      t :: BitVec.ofNat 8 p.length :: (p ++ List.replicate (61 - p.length) 0) := by
  rw [Vector.toList_pop, buildFrame_some_toList t p hp, ← List.cons_append, ← List.cons_append,
    List.dropLast_concat]

/-- The candidate of a built frame is delivered with its tag, length and payload (R145). -/
theorem validate_buildFrame (t : Byte) {p : List Byte} (hp : p.length ≤ 61) :
    validate (buildFrame t (some p)).pop (frameChecksum (buildFrame t (some p))) (buildFrame t (some p))[63] =
      .frameOk t (BitVec.ofNat 8 p.length) p := by
  rw [(checksumValid_iff _).1 (buildFrame_checksumValid t (some p))]
  have hbody := buildFrame_pop_toList t hp
  generalize (buildFrame t (some p)).pop = v at hbody ⊢
  have htype : v[0] = t := by simp [← Vector.getElem_toList, hbody]
  have hlen : v[1] = BitVec.ofNat 8 p.length := by simp [← Vector.getElem_toList, hbody]
  have hnat : v[1].toNat = p.length := by rw [hlen, BitVec.toNat_ofNat]; omega
  rw [validate_frameOk _ (hnat.le.trans hp), hnat, htype, hlen, hbody]
  simp only [memRead, List.drop_succ_cons, List.drop_zero, List.take_left']

/-- A built frame fed from RXCNT = 0 is delivered. -/
theorem endsCandidate_of_feeds_buildFrame {s : State} {t : Byte} {p : List Byte} {q rest : List Stimulus}
    (hp : p.length ≤ 61) (h0 : s.rxcnt = 0) (hf : Feeds (buildFrame t (some p)).toList q)
    (hq : s.pending = q ++ rest) : EndsCandidate s 63 rest (.frameOk t (BitVec.ofNat 8 p.length) p) := by
  rw [← validate_buildFrame t hp]
  exact endsCandidate_of_feeds_frame h0 hf hq

/-- 64 operations that end a candidate frame, by their outputs in order (R152). -/
theorem EndsCandidate.exists_last {s : State} {rest : List Stimulus} {ev : RxEvent} (h : EndsCandidate s 63 rest ev) :
    ∃ t os last, observe 64 s = .next (t, os ++ [last]) ∧ t.rxcnt = 0 ∧ t.pending = rest ∧
      os.length = 63 ∧ (∀ x ∈ os, x.rxevt = .noEvent) ∧ last.rxevt = ev := by
  obtain ⟨t, os, hobs, hcnt, hpend, hlen, hnone⟩ := h
  exact ⟨t, os, _, hobs, hcnt, hpend, hlen, hnone, rfl⟩

/-- 64 operations that end a candidate frame, by their one event (R153). -/
theorem EndsCandidate.exists_events {s : State} {rest : List Stimulus} {ev : RxEvent} (h : EndsCandidate s 63 rest ev)
    (hev : ev.kind ≠ .none) :
    ∃ t os, observe 64 s = .next (t, os) ∧ t.rxcnt = 0 ∧ t.pending = rest ∧ events os = [ev] := by
  obtain ⟨t, os, hobs, hcnt, hpend, -, hnone⟩ := h
  refine ⟨t, _, hobs, hcnt, hpend, ?_⟩
  rw [events_append, events_eq_nil hnone, events_singleton_event hev, List.nil_append]

/-- The outputs of an operation that completed with bytes. -/
theorem out_of_complete_bytes {s u : State} {bs : List Byte} {o : Output}
    (h : complete (.bytes bs) s = .next u) (ho : u.out = some o) : o = .bytes bs := by
  cases h
  exact (Option.some_inj.1 ho).symm

theorem payinBytes_eq_take (p : Inputs) (n : Nat) : payinBytes p n = p.payin.toList.take n := memRead_zero _ _

/-- Settles O44: BUILD and BUILD.P complete with the built frame, and its candidate is delivered. -/
theorem buildThenFeed : Obligations.BuildThenFeed := by
  intro b s u o q rest ha h0 hout hf hq
  refine ⟨fun hexec => ?_, fun len hlen hexec => ?_⟩
  · obtain rfl := out_of_complete_bytes ((execBuild_ok ha).symm.trans hexec) hout
    rw [buildFrame_none_eq] at hf
    exact (endsCandidate_of_feeds_buildFrame (by decide) h0 hf hq).exists_last
  · obtain rfl := out_of_complete_bytes ((execBuildP_ok hlen ha).symm.trans hexec) hout
    have hpay : (b.port.payin.toList.take len.val).length = len.val := by simp [hlen]
    rw [payinBytes_eq_take] at hf
    have h := endsCandidate_of_feeds_buildFrame (by omega) h0 hf hq
    rw [hpay] at h
    exact h.exists_last

/-- BUILD and BUILD.P have a built frame on RESBYTES, or no bytes (R171, R203). -/
theorem resbytes_of_isBuild {i : Instr} {s u : State} {o : Output} (hi : isBuild i = true) (h : exec i s = .next u)
    (ho : u.out = some o) : o.resbytes = [] ∨ ∃ t payload, o.resbytes = (buildFrame t payload).toList := by
  cases i with
  | feedb | extract | insert | ismod | combine | split => cases hi
  | build =>
    simp only [exec, execBuild] at h
    split at h <;> cases h <;> cases ho
    · exact .inr ⟨lowByte s.port.opa, none, rfl⟩
    · exact .inl rfl
  | buildP len =>
    simp only [exec, execBuildP] at h
    split_ifs at h <;> cases h <;> cases ho
    · exact .inr ⟨lowByte s.port.opa, some (payinBytes s.port len.val), rfl⟩
    · exact .inl rfl
    · exact .inl rfl

/-- Settles O45: a built frame is valid, so the frame with a flipped bit is not, and its candidate is a mismatch. -/
theorem flippedBitDetected : Obligations.FlippedBitDetected := by
  intro i b u s o f j k q rest hi hexec hout hres hf h0 hq
  have hvalid : checksumValid f = true := by
    rcases resbytes_of_isBuild hi hexec hout with hnil | ⟨t, payload, hframe⟩
    · have hlen := congrArg List.length (hres.trans hnil)
      simp at hlen
    · rw [Vector.toList_inj.1 (hres.trans hframe)]
      exact buildFrame_checksumValid t payload
  have hinvalid := singleBitSensitivity f j k hvalid
  rw [← Bool.not_eq_true, checksumValid_iff] at hinvalid
  have h := endsCandidate_of_feeds_frame h0 hf hq
  rw [validate_mismatch (Ne.symm hinvalid)] at h
  obtain ⟨t, os, hobs, hcnt, hpend, hev⟩ := h.exists_events nofun
  exact ⟨t, os, _, hobs, hcnt, hpend, hev, rfl⟩

end Sys2Proof.Machine
end

section
/-! PROOFS. The frame builder (spec/43_frame_builder.md): the frame BUILD and BUILD.P complete with, byte by byte (R171,
R177), that it is well-formed (R176), and the clock-push loopback at the end of R178. -/

namespace Sys2Proof.Machine

/-! ## What each operation completes with (R171) -/

/-- BUILD of a byte tag completes with the bytes of the frame of no payload. -/
theorem exec_build {st : State} {bs : List Byte} (ha : st.port.opa.toNat < 2 ^ 8)
    (hbs : (buildFrame (lowByte st.port.opa) none).toList = bs) : exec .build st = complete (.bytes bs) st := by
  subst hbs
  exact execBuild_ok ha

/-- BUILD.P of a byte tag and a legal LEN completes with the bytes of the frame of the payload it reads. -/
theorem exec_buildP {st : State} {len : PayloadLen} {bs : List Byte} (hlen : len.val ≤ 61)
    (ha : st.port.opa.toNat < 2 ^ 8)
    (hbs : (buildFrame (lowByte st.port.opa) (some (payinBytes st.port len.val))).toList = bs) :
    exec (.buildP len) st = complete (.bytes bs) st := by
  subst hbs
  exact execBuildP_ok hlen ha

/-- As many bytes are read of PAYIN as LEN says, where LEN is legal. -/
theorem payinBytes_length (inp : Inputs) {n : Nat} (h : n ≤ 61) : (payinBytes inp n).length = n := by
  simp [payinBytes, h]

/-! ## The bytes of a built frame (R177) -/

/-- A frame without payload is the tag, 62 zero bytes and the tag again as the checksum. -/
theorem buildFrame_none_toList (t : Byte) :
    (buildFrame t none).toList = t :: (List.replicate 62 0 ++ [t]) := by
  rw [buildFrame_none_eq, buildFrame_some_toList t [] (Nat.zero_le _)]
  simp [List.replicate_succ]

/-- The checksum of tag, length and payload is the low byte of their exact sum. -/
theorem builtChecksum_eq_ofNat_sum (v : Word) (n : Nat) (p : List Byte) :
    lowByte v + BitVec.ofNat 8 n + checksum p = BitVec.ofNat 8 (v.toNat + n + (p.map BitVec.toNat).sum) := by
  rw [BitVec.ofNat_add, BitVec.ofNat_add, BitVec.ofNat_toNat, lowByte, checksum]

/-- Settles O33: both operations complete with the built frame, and its checksum byte, a sum of bytes, is the low byte
of the exact sum. -/
theorem buildResult : Obligations.BuildResult := by
  intro st ha
  refine ⟨exec_build ha (buildFrame_none_toList _), fun len hlen => exec_buildP hlen ha ?_⟩
  have hpay : (payinBytes st.port len.val).length = len.val := payinBytes_length st.port hlen
  rw [buildFrame_some_toList _ _ (hpay.trans_le hlen), hpay, builtChecksum_eq_ofNat_sum, payinBytes_eq_take, lowByte]

/-! ## Built frames are well-formed (R176) -/

/-- A valid frame is well-formed where its length byte reads `n`, at most 61, and the bytes between the payload and the
checksum are zero (R64). -/
theorem frameWellFormed_of_length {f : Frame} {n : Nat} (hsum : checksumValid f = true) (hlen : f[1].toNat = n)
    (hn : n ≤ 61) (hpad : memRead f.toList (2 + n) (61 - n) = List.replicate (61 - n) 0) :
    frameWellFormed f = true := by
  subst hlen
  simp [frameWellFormed, hsum, hn, hpad]

theorem buildFrame_some_wellFormed (t : Byte) {p : List Byte} (hp : p.length ≤ 61) :
    frameWellFormed (buildFrame t (some p)) = true := by
  have hbytes := buildFrame_some_toList t p hp
  have hlen : (buildFrame t (some p))[1] = BitVec.ofNat 8 p.length := by
    simp [← Vector.getElem_toList, hbytes]
  refine frameWellFormed_of_length (buildFrame_checksumValid t (some p)) ?_ hp ?_
  · rw [hlen, BitVec.toNat_ofNat]
    omega
  · rw [hbytes, memRead, Nat.add_comm, List.drop_succ_cons, List.drop_succ_cons, List.append_assoc,
      List.drop_left' rfl, List.take_left' List.length_replicate]

/-- A BUILD or BUILD.P that completes with OK has on RESBYTES the frame of a payload that fits (R171, R172). -/
theorem resbytes_of_isBuild_ok {i : Instr} {s u : State} {o : Output} (hi : isBuild i = true)
    (h : exec i s = .next u) (ho : u.out = some o) (hok : o.status = .ok) :
    ∃ t p, p.length ≤ 61 ∧ (buildFrame t (some p)).toList = o.resbytes := by
  cases i with
  | feedb | extract | insert | ismod | combine | split => cases hi
  | build =>
    simp only [exec, execBuild] at h
    split at h <;> cases h <;> cases ho
    · exact ⟨lowByte s.port.opa, [], Nat.zero_le _, congrArg Vector.toList (buildFrame_none_eq _).symm⟩
    · cases hok
  | buildP len =>
    simp only [exec, execBuildP, legalPayload_iff] at h
    split_ifs at h with hlen <;> cases h <;> cases ho
    · exact ⟨lowByte s.port.opa, payinBytes s.port len.val, (payinBytes_length _ hlen).trans_le hlen, rfl⟩
    · cases hok
    · cases hok

/-- Settles O35: the bytes of a completed build are those of a built frame with a payload that fits. -/
theorem builtFramesWellFormed : Obligations.BuiltFramesWellFormed := by
  intro i s u o hi hexec hout hok
  obtain ⟨t, p, hp, hres⟩ := resbytes_of_isBuild_ok hi hexec hout hok
  exact ⟨buildFrame t (some p), hres, buildFrame_some_wellFormed t hp⟩

/-! ## The clock-push loopback (R178) -/

/-- BUILD.P of a byte tag with LEN bytes on PAYIN has their frame on RESBYTES. -/
theorem resbytesOf_buildP {len : PayloadLen} {p : List Byte} (hp : p.length = len.val) (hlen : len.val ≤ 61)
    (st : State) (t : Byte) (y : Word) :
    resbytesOf (outputOf (.buildP len) st (t.setWidth 32) y p) = some (buildFrame t (some p)).toList := by
  refine resbytesOf_outputOf_bytes (opa := t.setWidth 32) (exec_buildP hlen (setWidth_lt t) ?_)
  rw [lowByte_setWidth, ← hp, payinBytes_toPayin (hp.trans_le hlen)]

/-- Legal tags keep the commands apart from the data tags (D23). -/
theorem pushClockConfig_ne_clockConfig {tags : Config.Tags} (h : tags.Legal) :
    tags.pushClockConfig ≠ tags.clockConfig := by
  obtain ⟨-, -, hdisj⟩ := List.nodup_append.1 h
  exact hdisj _ (by simp [Config.Tags.commands]) _ (by simp [Config.Tags.data])

/-- Settles O48: the three splits give 12 bytes, BUILD.P their frame, and that frame's candidate is delivered. -/
theorem clockPushLoopback : Obligations.ClockPushLoopback := by
  intro tags b osc m n
  have hsplit (v : Word) : ∃ bs, resbytesOf (outputOf (.split 4) b v 0 []) = some bs ∧ bs.length = 4 :=
    ⟨_, resbytesOf_split (n := 4) (by decide) b v, splitBytes_length _ _⟩
  obtain ⟨p₁, h₁, hlen₁⟩ := hsplit osc
  obtain ⟨p₂, h₂, hlen₂⟩ := hsplit m
  obtain ⟨p₃, h₃, hlen₃⟩ := hsplit n
  have hlen : (p₁ ++ p₂ ++ p₃).length = 12 := by simp [hlen₁, hlen₂, hlen₃]
  have hbuild := resbytesOf_buildP (len := 12) hlen (by decide) b tags.pushClockConfig 0
  refine ⟨p₁, p₂, p₃, _, h₁, h₂, h₃, hbuild, fun s q rest h0 hf hq => ?_, pushClockConfig_ne_clockConfig⟩
  have hdelivered := endsCandidate_of_feeds_buildFrame (hlen.trans_le (by decide)) h0 hf hq
  obtain ⟨t, os, hobs, -, -, hev⟩ := hdelivered.exists_events nofun
  rw [hlen] at hev
  exact ⟨t, os, hobs, hev⟩

end Sys2Proof.Machine
end

section
/-! PROOFS. How an operation ends (spec/60_exceptions.md): which commands and operands are rejected, in which order
(R201, R202, R207), and that a rejected operation has no effect (R203). -/

namespace Sys2Proof

/-- The decoder answers well-formed operations only (R74). -/
theorem wellFormed_of_decode {cmd : Word} {i : Instr} (h : decode cmd = .op i) : i.WellFormed := by
  rw [decode] at h
  generalize Fields.ofWord cmd = f at h
  rw [decodeFields] at h
  split at h
  · cases h
  · split at h
    case h_1 =>
      split at h <;> cases h
      exact wellFormed_feedb
    case h_2 =>
      split_ifs at h with _ _ _ hlen <;> cases h
      · exact wellFormed_build
      · exact (wellFormed_buildP _).2 (Nat.not_lt.1 hlen)
    case h_3 | h_4 | h_5 =>
      obtain ⟨-, -, -, hfield, rfl⟩ := (decodeField_iff _ _ _).1 h
      exact hfield
    case h_6 =>
      obtain ⟨-, -, -, -, -, hn, rfl⟩ := (decodeCount_iff _ _ _).1 h
      exact (wellFormed_combine _).2 hn
    case h_7 =>
      obtain ⟨-, -, -, -, -, hn, rfl⟩ := (decodeCount_iff _ _ _).1 h
      exact (wellFormed_split _).2 hn
    case h_8 => cases h

end Sys2Proof

namespace Sys2Proof.Machine

/-! ## The operands of a well-formed operation (R202) -/

/-- An operand at or above 2^8 is no byte. -/
theorem not_isByte {v : Word} (h : 2 ^ 8 ≤ v.toNat) : ¬ isByte v = true :=
  mt (isByte_iff v).1 (Nat.not_lt.2 h)

/-- The machine's test of a bit-field operand refuses what the statements call out of range. -/
theorem not_admits {w : Width} {v : Word} (h : w = .byte ∧ 2 ^ 8 ≤ v.toNat) : ¬ admits w v = true :=
  mt (admits_iff w v).1 fun hv => Nat.not_lt.2 h.2 (hv h.1)

/-- A bit-field operand that is not out of range is a byte where it must be. -/
theorem byte_of_not_outOfRange {w : Width} {v : Word} (h : ¬ (w = .byte ∧ 2 ^ 8 ≤ v.toNat)) (hw : w = .byte) :
    v.toNat < 2 ^ 8 :=
  Nat.not_le.1 (not_and.1 h hw)

section
variable {i : Instr} {s : State} (hi : i.WellFormed)
include hi

/-- OPA out of range is refused, whatever OPB holds. -/
theorem exec_operandA_rejected (hA : operandAOutOfRange i s.port) :
    exec i s = raiseBadOperand .a s.port.opa s := by
  cases i with
  | feedb => exact exec_feedb_rejected (Nat.not_lt.2 hA)
  | build => exact if_neg (not_isByte hA)
  | buildP len =>
    exact (if_pos ((legalPayload_iff len).2 ((wellFormed_buildP len).1 hi))).trans
      (if_neg (not_isByte hA))
  | extract w b e | insert w b e | ismod w b e =>
    exact (if_pos ((legalField_eq w b e).trans hi)).trans
      (if_neg (not_admits hA))
  | combine n | split n => exact hA.elim

/-- OPB out of range is refused where OPA is in range; only ISMOD refuses it. -/
theorem exec_operandB_rejected (hA : ¬ operandAOutOfRange i s.port) (hB : operandBOutOfRange i s.port) :
    exec i s = raiseBadOperand .b s.port.opb s := by
  cases i with
  | ismod w b e =>
    exact (if_pos ((legalField_eq w b e).trans hi)).trans
      ((if_pos ((admits_iff _ _).2 (byte_of_not_outOfRange hA))).trans
        (if_neg (not_admits hB)))
  | feedb | build | buildP | extract | insert | combine | split => exact hB.elim

/-- With both operands in range the operation completes with OK. -/
theorem exec_completes (hA : ¬ operandAOutOfRange i s.port) (hB : ¬ operandBOutOfRange i s.port) :
    ∃ t o, exec i s = complete o t ∧ o.status = .ok := by
  cases i with
  | feedb => exact ⟨_, _, exec_feedb_byte (Nat.not_le.1 hA), rfl⟩
  | build => exact ⟨_, _, execBuild_ok (Nat.not_le.1 hA), rfl⟩
  | buildP len => exact ⟨_, _, execBuildP_ok ((wellFormed_buildP len).1 hi) (Nat.not_le.1 hA), rfl⟩
  | extract w b e => exact ⟨_, _, exec_extract hi (byte_of_not_outOfRange hA), rfl⟩
  | insert w b e => exact ⟨_, _, exec_insert hi (byte_of_not_outOfRange hA), rfl⟩
  | ismod w b e => exact ⟨_, _, exec_ismod hi (byte_of_not_outOfRange hA) (byte_of_not_outOfRange hB), rfl⟩
  | combine n => exact ⟨_, _, exec_combine ((wellFormed_combine n).1 hi) s, rfl⟩
  | split n => exact ⟨_, _, exec_split ((wellFormed_split n).1 hi) s, rfl⟩

/-- What the outputs of a well-formed operation hold, in the order of R207. -/
theorem exec_outcome : ∃ t o, exec i s = complete o t ∧
    (operandAOutOfRange i s.port → t = s ∧ o = .badOperand .a s.port.opa) ∧
    (¬ operandAOutOfRange i s.port → operandBOutOfRange i s.port → t = s ∧ o = .badOperand .b s.port.opb) ∧
    (¬ operandAOutOfRange i s.port → ¬ operandBOutOfRange i s.port → o.status = .ok) := by
  by_cases hA : operandAOutOfRange i s.port
  · exact ⟨_, _, exec_operandA_rejected hi hA, fun _ => ⟨rfl, rfl⟩, fun h => absurd hA h, fun h => absurd hA h⟩
  by_cases hB : operandBOutOfRange i s.port
  · exact ⟨_, _, exec_operandB_rejected hi hA hB, fun h => absurd h hA, fun _ _ => ⟨rfl, rfl⟩, fun _ h => absurd hB h⟩
  · obtain ⟨t, o, hexec, hok⟩ := exec_completes hi hA hB
    exact ⟨t, o, hexec, fun h => absurd h hA, fun _ h => absurd h hB, fun _ _ => hok⟩

end

/-- Settles O15: a well-formed operation is refused by its first operand out of range, and completes where none is. -/
theorem operandsChecked : Obligations.OperandsChecked := by
  intro i s hi
  refine ⟨exec_operandA_rejected hi, exec_operandB_rejected hi, fun hA hB => ?_⟩
  obtain ⟨t, o, hexec, hok⟩ := exec_completes hi hA hB
  exact ⟨_, o, hexec, rfl, hok⟩

/-! ## Rejected operations (R201, R203) -/

/-- Settles O7: the step of an illegal command drives the outputs of R201 and nothing else. -/
theorem illegalCommandRejected : Obligations.IllegalCommandRejected := by
  intro s inp rest hq hd
  exact step_illegal hq hd

/-- An operation that does not complete with OK only drives the outputs of an ILLEGAL or of a BAD_OPERAND. -/
theorem step_rejected {s t : State} {inp : Inputs} {rest : List Stimulus} {o : Output}
    (hq : s.pending = .operation inp :: rest) (hstep : step s = .next t) (hout : t.out = some o)
    (hno : o.status ≠ .ok) :
    t = (s.present inp rest).setOut o ∧ (o = .illegal ∨ ∃ x v, o = .badOperand x v) := by
  cases hd : decode inp.cmd with
  | illegal =>
    rw [step_illegal hq hd] at hstep
    cases hstep
    cases hout
    exact ⟨rfl, .inl rfl⟩
  | op i =>
    obtain ⟨u, o', hexec, hA, hB, hok⟩ := exec_outcome (s := s.present inp rest) (wellFormed_of_decode hd)
    rw [step_operation hq hd, hexec] at hstep
    cases hstep
    cases hout
    by_cases ha : operandAOutOfRange i inp
    · obtain ⟨rfl, rfl⟩ := hA ha
      exact ⟨rfl, .inr ⟨_, _, rfl⟩⟩
    by_cases hb : operandBOutOfRange i inp
    · obtain ⟨rfl, rfl⟩ := hB ha hb
      exact ⟨rfl, .inr ⟨_, _, rfl⟩⟩
    · exact absurd (hok ha hb) hno

/-- Settles O14: only outputs are driven, and those of an ILLEGAL or a BAD_OPERAND hold no result and no event. -/
theorem rejectedHasNoEffect : Obligations.RejectedHasNoEffect := by
  intro s inp rest t o hq hstep hout hno
  obtain ⟨rfl, rfl | ⟨x, v, rfl⟩⟩ := step_rejected hq hstep hout hno <;> exact ⟨rfl, rfl, rfl, rfl, rfl⟩

/-! ## The order of outcomes (R207) -/

/-- The kind of the event of an accepted FEEDB that completes a frame: the checksum first, then the length (R142). -/
theorem exec_feedb_event_kind {s t : State} {o : Output} (hexec : exec .feedb s = .next t) (hout : t.out = some o)
    (ha : s.port.opa.toNat < 2 ^ 8) (hcnt : s.rxcnt = 63) :
    let c := (s.rxbuf.toList.map BitVec.toNat).sum % 2 ^ 8
    (c ≠ s.port.opa.toNat → o.rxevt.kind = .checksumMismatch) ∧
    (c = s.port.opa.toNat → 61 < s.rxbuf[1].toNat → o.rxevt.kind = .lengthOverrange) ∧
    (c = s.port.opa.toNat → s.rxbuf[1].toNat ≤ 61 → o.rxevt.kind = .frameOk) := by
  obtain ⟨ev, hev, hsum, hlen, hframe⟩ := feedbCompletesFrame s ha hcnt
  cases hexec.symm.trans hev
  cases hout
  refine ⟨fun h => congrArg RxEvent.kind (hsum h), fun h h' => congrArg RxEvent.kind (hlen h h'), fun h h' => ?_⟩
  obtain ⟨_, hok, -⟩ := hframe h h'
  exact congrArg RxEvent.kind hok

/-- Settles O16: an illegal command is refused by the decoder, any other is well-formed and ends as its operands say;
a FEEDB that is OK is a FEEDB of a byte. -/
theorem outcomePriority : Obligations.OutcomePriority := by
  intro s inp rest hq
  cases hd : decode inp.cmd with
  | illegal => exact ⟨_, _, step_illegal hq hd, rfl, fun _ => rfl, nofun, nofun⟩
  | op i =>
    obtain ⟨t, o, hexec, hA, hB, hok⟩ := exec_outcome (s := s.present inp rest) (wellFormed_of_decode hd)
    refine ⟨t.setOut o, o, (step_operation hq hd).trans hexec, rfl, nofun, ?_, ?_⟩
    · rintro _ ⟨⟩
      refine ⟨fun ha => ?_, fun ha hb => ?_, hok⟩
      · rw [(hA ha).2]
        exact ⟨rfl, rfl⟩
      · rw [(hB ha hb).2]
        exact ⟨rfl, rfl⟩
    · rintro ⟨⟩ hstatus hcnt
      have ha : inp.opa.toNat < 2 ^ 8 := by
        refine Nat.not_le.1 fun h => ?_
        rw [(hA h).2] at hstatus
        cases hstatus
      exact exec_feedb_event_kind hexec rfl ha hcnt

end Sys2Proof.Machine
end

section
/-! PROOFS. Reset and hazards (spec/70_reset_and_hazards.md): what the reset input does (R230), and a candidate frame
that straddles two sent frames and is delivered (R242). -/

namespace Sys2Proof.Machine

/-- Settles O10: a step on the reset input applies the reset to the state with the input taken off the queue. -/
theorem resetInput : Obligations.ResetInput := fun s rest hq =>
  ⟨_, step_reset hq, State.applyReset_rxcnt _, State.applyReset_out _,
    (State.applyReset_pending _).trans (State.dequeue_pending s rest)⟩

/-! ## A shifted candidate (R242) -/

/-- Byte 0 of a built frame is its tag (R171). -/
theorem buildFrame_type (t : Byte) {p : List Byte} (hp : p.length ≤ 61) : (buildFrame t (some p))[0] = t := by
  simp [← Vector.getElem_toList, buildFrame_some_toList t p hp]

/-- One byte off the boundary of a frame with tag 0xFC and payload [3] that is followed by one with tag 4, the stream
holds a built frame: the length byte 1 reads as the tag, the payload 3 as the length, the checksum 0 as padding, and
the next tag as the checksum 1 + 3. -/
theorem shifted_eq_buildFrame :
    (((buildFrame 0xFC (some [3])).toList ++ (buildFrame 4 (some [])).toList).drop 1).take 64 =
      (buildFrame 1 (some [0, 0, 0])).toList := by
  rw [buildFrame_some_toList _ _ (by decide), buildFrame_some_toList _ _ (by decide),
    buildFrame_some_toList _ _ (by decide)]
  decide

/-- Settles O47: the shifted candidate is a built frame, so it is delivered with that frame's tag, which neither of the
two frames sent has. -/
theorem shiftedFrameCanBeDelivered : Obligations.ShiftedFrameCanBeDelivered := by
  refine ⟨buildFrame 0xFC (some [3]), buildFrame 4 (some []), buildFrame_some_wellFormed _ (by decide),
    buildFrame_some_wellFormed _ (by decide), 1, by decide, by decide, fun s q rest h0 hf hq => ?_⟩
  rw [shifted_eq_buildFrame] at hf
  obtain ⟨t, os, hobs, -, -, hev⟩ := (endsCandidate_of_feeds_buildFrame (by decide) h0 hf hq).exists_events nofun
  refine ⟨t, os, _, hobs, hev, rfl, ?_⟩
  rw [buildFrame_type _ (by decide), buildFrame_type _ (by decide)]
  decide

end Sys2Proof.Machine
end

section
/-! PROOFS. The decoder and the encoder (spec/30_encoding.md section 2): each undoes the other on every word and every
operation (R70 to R74), written-out command words, and the expansion of `feed` (R78). -/

namespace Sys2Proof

/-! ## Decoding and encoding undo each other (R70 to R74) -/

/-- The fields of a well-formed operation decode to it. -/
theorem decodeFields_fields {i : Instr} (hi : i.WellFormed) : decodeFields i.fields = .op i := by
  cases i with
  | feedb | build => rfl
  | buildP len => exact if_neg (Nat.not_lt.2 ((wellFormed_buildP len).1 hi))
  | extract w s e | insert w s e | ismod w s e => simpa [decodeFields, Instr.fields, decodeField_iff] using hi
  | combine n | split n => simpa [decodeFields, Instr.fields, decodeCount_iff] using hi

/-- Fields that decode to an operation are its fields: every field it does not use is zero (R73). -/
theorem eq_fields_of_decodeFields {f : Fields} {i : Instr} (h : decodeFields f = .op i) : f = i.fields := by
  obtain ⟨op, w, s, e, n, p, len, rsv⟩ := f
  rw [decodeFields] at h
  split at h
  case isTrue => cases h
  case isFalse hrsv =>
    obtain rfl := not_not.1 hrsv
    split at h
    case h_1 hop =>
      obtain rfl : op = 0x1 := Fin.ext hop
      split_ifs at h with hunused
      cases h
      simp_all [Instr.fields]
    case h_2 hop =>
      obtain rfl : op = 0x2 := Fin.ext hop
      split_ifs at h with hunused hp hlen <;> cases h
      · simp_all [Instr.fields]
      · have hp : p = 1 := Fin.eq_one_of_ne_zero p hp
        simp_all [Instr.fields]
    case h_3 hop | h_4 hop | h_5 hop =>
      obtain rfl := Fin.ext (b := ⟨_, by decide⟩) hop
      obtain ⟨rfl, rfl, rfl, -, rfl⟩ := (decodeField_iff _ _ _).1 h
      simp [Instr.fields]
    case h_6 hop | h_7 hop =>
      obtain rfl := Fin.ext (b := ⟨_, by decide⟩) hop
      obtain ⟨rfl, rfl, rfl, rfl, rfl, -, rfl⟩ := (decodeCount_iff _ _ _).1 h
      rfl
    case h_8 => cases h

/-- A well-formed operation's command word decodes to it. -/
theorem decode_encode {i : Instr} (hi : i.WellFormed) : decode (encode i) = .op i :=
  (decode_encode_fields i).trans (decodeFields_fields hi)

/-- A word that decodes to an operation is its command word. -/
theorem encode_of_decode {cmd : Word} {i : Instr} (h : decode cmd = .op i) : encode i = cmd := by
  rw [encode, ← eq_fields_of_decodeFields h, Fields.toWord_ofWord]

/-- Settles O1: the decoder answers well-formed operations only, on their own command word, and that word decodes. -/
theorem decodeIffEncode : Obligations.DecodeIffEncode := by
  refine fun cmd i => ⟨fun h => ⟨wellFormed_of_decode h, encode_of_decode h⟩, ?_⟩
  rintro ⟨hi, rfl⟩
  exact decode_encode hi

/-- Settles O3: the decoder is run on each word. -/
theorem sampleWordsDecode : Obligations.SampleWordsDecode := by
  unfold Obligations.SampleWordsDecode
  decide

end Sys2Proof

namespace Sys2Proof.Machine

/-! ## The expansion of `feed` (R78) -/

/-- Settles O5: `feed` maps each byte to the operation that its `feedb` line assembles to. -/
theorem feedExpands : Obligations.FeedExpands := by
  refine ⟨fun bs => List.map_map, fun bs k x hx => ?_⟩
  rw [feedOps, List.getElem?_map, Option.map_eq_some_iff] at hx
  obtain ⟨b, hb, rfl⟩ := hx
  exact ⟨b, _, hb, rfl, decode_encode wellFormed_feedb, rfl⟩

end Sys2Proof.Machine
end

section
/-! PROOFS. The step (spec/10_state.md, spec/60_exceptions.md): what it runs (R26, R47), that it never stops (R206), and
that it leaves legal outputs (R29, R30, R203). -/

namespace Sys2Proof.Machine

/-! ## Legal outputs (R29, R30) -/

theorem setOut_inv_iff (s : State) (o : Output) : (s.setOut o).Inv ↔ o.legal = true := by
  simp [State.Inv]

/-- Outputs with OK are legal where the event is and the bytes are at most 64. -/
theorem legal_iff_of_ok {o : Output} (hok : o.status = .ok) (hinfo : o.info = none) :
    o.legal = true ↔ o.rxevt.legal = true ∧ o.resbytes.length ≤ 64 := by
  simp [Output.legal, hok, hinfo]

theorem bytes_legal {bs : List Byte} (h : bs.length ≤ 64) : (Output.bytes bs).legal = true :=
  (legal_iff_of_ok rfl rfl).2 ⟨rfl, h⟩

theorem event_legal {ev : RxEvent} (h : ev.legal = true) : (Output.event ev).legal = true :=
  (legal_iff_of_ok rfl rfl).2 ⟨h, Nat.zero_le _⟩

@[simp] theorem scalar_legal (v : Word) : (Output.scalar v).legal = true := rfl

@[simp] theorem illegal_legal : Output.illegal.legal = true := rfl

@[simp] theorem badOperand_legal (x : OperandName) (v : Word) : (Output.badOperand x v).legal = true := rfl

/-- The event of a candidate frame is legal: a mismatch has two different checksums, a frame its length's bytes, at most
61, and an over-range length exceeds 61 (R142, R143, R145). -/
theorem validate_legal (rxbuf : Vector Byte 63) (c b : Byte) : (validate rxbuf c b).legal = true := by
  by_cases hc : c = b
  · subst hc
    by_cases hlen : rxbuf[1].toNat ≤ 61
    · have hpay : (memRead rxbuf.toList 2 rxbuf[1].toNat).length = rxbuf[1].toNat := by simp; omega
      rw [validate_frameOk _ hlen]
      exact decide_eq_true ⟨rfl, hpay, hlen⟩
    · rw [validate_overrange _ (Nat.not_le.1 hlen)]
      exact decide_eq_true ⟨rfl, Nat.not_le.1 hlen⟩
  · rw [validate_mismatch hc]
    exact decide_eq_true ⟨rfl, hc⟩

/-- The event of an accepted byte is legal. -/
theorem receiveByte_event_legal (b : Byte) (s : State) : (receiveByte b s).2.legal = true := by
  rcases receiveByte_cases b s with ⟨h, e⟩ | ⟨h, e⟩ <;> rw [e]
  · rfl
  · exact validate_legal _ _ _

/-- An outcome that drives legal outputs. -/
def EndsLegally (r : Host.Outcome State Fault Refusal) : Prop :=
  ∃ s o, r = .next (State.setOut s o) ∧ o.legal = true

theorem endsLegally_complete {o : Output} (s : State) (h : o.legal = true) : EndsLegally (complete o s) :=
  ⟨s, o, rfl, h⟩

@[simp] theorem endsLegally_scalar (s : State) (v : Word) : EndsLegally (complete (.scalar v) s) :=
  endsLegally_complete s (scalar_legal v)

@[simp] theorem endsLegally_illegal (s : State) : EndsLegally (raiseIllegal s) := ⟨s, _, rfl, illegal_legal⟩

@[simp] theorem endsLegally_badOperand (s : State) (x : OperandName) (v : Word) : EndsLegally (raiseBadOperand x v s) :=
  ⟨s, _, rfl, badOperand_legal x v⟩

/-- A frame is a legal result (R29). -/
@[simp] theorem endsLegally_frame (s : State) (f : Frame) : EndsLegally (complete (.bytes f.toList) s) :=
  endsLegally_complete s (bytes_legal Vector.length_toList.le)

/-- A lane count's bytes are a legal result (R29). -/
@[simp] theorem endsLegally_splitBytes (s : State) (n : ByteCount) (v : Word) :
    EndsLegally (complete (.bytes (splitBytes n.val v)) s) :=
  endsLegally_complete s (bytes_legal (by simp; omega))

/-- The event of an accepted byte is a legal event. -/
@[simp] theorem endsLegally_receiveByte (s t : State) (b : Byte) :
    EndsLegally (complete (.event (receiveByte b s).2) t) :=
  endsLegally_complete t (event_legal (receiveByte_event_legal b s))

/-- Every operation drives legal outputs, in every state and on every operand. -/
theorem exec_endsLegally (i : Instr) (s : State) : EndsLegally (exec i s) := by
  cases i with
  | feedb => simp only [exec, execFeedb]; split_ifs <;> simp
  | build => simp only [exec, execBuild]; split_ifs <;> simp
  | buildP len => simp only [exec, execBuildP]; split_ifs <;> simp
  | extract w b e => simp only [exec, execExtract]; split_ifs <;> simp
  | insert w b e => simp only [exec, execInsert]; split_ifs <;> simp
  | ismod w b e => simp only [exec, execIsmod]; split_ifs <;> simp
  | combine n => simp only [exec, execCombine]; split_ifs <;> simp
  | split n => simp only [exec, execSplit]; split_ifs <;> simp

/-- Settles O21: an operation drives legal outputs, an illegal command those of ILLEGAL, and the reset input and an idle
step none. -/
theorem stepKeepsOutputsLegal : Obligations.StepKeepsOutputsLegal := by
  intro s t hstep
  rcases hq : s.pending with _ | ⟨inp | _, rest⟩
  · cases (step_idle hq).symm.trans hstep
    exact nofun
  · have hlegal : EndsLegally (step s) := by
      cases hd : decode inp.cmd with
      | illegal => exact ⟨_, _, step_illegal hq hd, rfl⟩
      | op i =>
        rw [step_operation hq hd]
        exact exec_endsLegally i _
    obtain ⟨u, o, hu, ho⟩ := hlegal
    cases hu.symm.trans hstep
    exact (setOut_inv_iff u o).2 ho
  · cases (step_reset hq).symm.trans hstep
    exact nofun

/-- Settles O22: no output is driven. -/
theorem resetOutputsLegal : Obligations.ResetOutputsLegal := nofun

/-- Settles O12: both are fields of the reset state. -/
theorem stateAfterReset : Obligations.StateAfterReset := ⟨rfl, rfl⟩

/-- Settles O23: the codes of R200 and R30, and no status has code 3. -/
theorem statusAndEventCodes : Obligations.StatusAndEventCodes := by
  refine ⟨rfl, rfl, rfl, fun st => ?_, rfl, rfl, rfl, rfl⟩
  cases st <;> decide

/-! ## What a step runs (R26, R47) -/

/-- Settles O6: the encoding of a well-formed operation decodes to it. -/
theorem stepRunsDecoded : Obligations.StepRunsDecoded := by
  intro s inp rest i hq hi hcmd
  exact step_operation hq (hcmd ▸ decode_encode hi)

/-- A row of the opcode table is decoded as the command word of its low bits (R75). -/
theorem decode_of_decodeTableWord {nbits w : Nat} {i : Instr} (h : decodeTableWord nbits w = some i) :
    decode (BitVec.ofNat 32 (w % 2 ^ nbits)) = .op i := by
  rw [decodeTableWord] at h
  split at h <;> cases h
  assumption

/-- Settles O9: the placed word is at the head of the queue, and the step runs what it decodes to. -/
theorem placedWordRuns : Obligations.PlacedWordRuns := by
  intro s nbits w i h
  exact step_operation (State.enqueueFirst_pending s _) (decode_of_decodeTableWord h)

/-- Settles O11: the idle step undrives the outputs. -/
theorem idleStep : Obligations.IdleStep := fun _ hq => step_idle hq

/-- Settles O8: only operations with bounds can be ill-formed, and `exec` tests those bounds first. -/
theorem illFormedRejected : Obligations.IllFormedRejected := by
  intro i s hi
  cases i with
  | feedb => exact absurd wellFormed_feedb hi
  | build => exact absurd wellFormed_build hi
  | buildP len => exact if_neg (mt (fun h => (wellFormed_buildP len).2 ((legalPayload_iff len).1 h)) hi)
  | extract w b e | insert w b e | ismod w b e => exact if_neg (mt (legalField_eq w b e).symm.trans hi)
  | combine n => exact if_neg (mt (fun h => (wellFormed_combine n).2 ((legalCount_iff n).1 h)) hi)
  | split n => exact if_neg (mt (fun h => (wellFormed_split n).2 ((legalCount_iff n).1 h)) hi)

/-! ## Runs (R206) -/

/-- Settles O13, by induction on the number of steps: no step stops. -/
theorem runsNeverStop : Obligations.RunsNeverStop := by
  intro k
  induction k with
  | zero => exact fun s => ⟨s, [], observe_zero s⟩
  | succ k ih =>
    intro s
    obtain ⟨t, hstep⟩ := step_completes s
    obtain ⟨u, os, hobs⟩ := ih t
    exact ⟨u, _, observe_succ hstep hobs⟩

end Sys2Proof.Machine
end

section
/-! PROOFS. Frames of effect: what an operation leaves unchanged (R20, R48, R148, R170), what its outputs depend on (R21,
R73, R231), and that operations other than FEEDB commute with every operation (R50). -/

namespace Sys2Proof.Machine

/-! ## What an operation leaves unchanged (R20, R48) -/

/-- An accepted byte changes at most the byte RXBUF[RXCNT] of RXBUF (R141). -/
theorem receiveByte_rxbuf_of_ne (b : Byte) {s : State} {k : Nat} (hk : k ≠ s.rxcnt.val) :
    (receiveByte b s).1.rxbuf[k]? = s.rxbuf[k]? := by
  rcases receiveByte_cases b s with ⟨h, e⟩ | ⟨h, e⟩ <;> rw [e]
  · exact Vector.getElem?_set_ne h (Ne.symm hk)
  · rfl

/-- Settles O17: a FEEDB receives a byte or is rejected, and every other operation only drives the outputs. -/
theorem execFrame : Obligations.ExecFrame := by
  intro i s t hexec
  by_cases hi : i = .feedb
  · subst hi
    by_cases ha : s.port.opa.toNat < 2 ^ 8
    · cases (exec_feedb_byte ha).symm.trans hexec
      exact ⟨receiveByte_port _ s, receiveByte_pending _ s, receiveByte_freeIdx _ s,
        fun k hk => receiveByte_rxbuf_of_ne _ hk, fun h => absurd rfl h⟩
    · cases (exec_feedb_rejected ha).symm.trans hexec
      exact ⟨rfl, rfl, rfl, fun _ _ => rfl, fun _ => ⟨rfl, rfl⟩⟩
  · obtain ⟨o, ho⟩ := exec_eq_setOut i s hi
    cases ho.symm.trans hexec
    exact ⟨rfl, rfl, rfl, fun _ _ => rfl, fun _ => ⟨rfl, rfl⟩⟩

/-- Settles O18, by induction on the operations: none of them is an accepted FEEDB, so each only drives the outputs. -/
theorem partialFramePersists : Obligations.PartialFramePersists := by
  intro s ps rest hq hrej
  induction ps generalizing s with
  | nil => exact ⟨s, [], observe_zero s, hq, rfl, rfl⟩
  | cons p ps ih =>
    obtain ⟨hp, hps⟩ := List.forall_mem_cons.1 hrej
    obtain ⟨o, -, hstep⟩ := step_otherOperation hq fun h => Nat.not_lt.2 (hp h.1) h.2
    obtain ⟨t, os, hobs, hrest, hbuf, hcnt⟩ := ih (s := (s.present p _).setOut o) rfl hps
    exact ⟨t, _, observe_succ hstep hobs, hrest, hbuf, hcnt⟩

/-! ## What the outputs depend on (R73, R231) -/

/-- Two outcomes that only drive the outputs, with the same outputs. -/
def DriveSameOutputs (s s' : State) (r r' : Host.Outcome State Fault Refusal) : Prop :=
  ∃ o : Output, r = .next (s.setOut o) ∧ r' = .next (s'.setOut o)

section
variable (s s' : State)

@[simp] theorem driveSameOutputs_complete (o : Output) : DriveSameOutputs s s' (complete o s) (complete o s') :=
  ⟨o, rfl, rfl⟩

@[simp] theorem driveSameOutputs_illegal : DriveSameOutputs s s' (raiseIllegal s) (raiseIllegal s') := ⟨_, rfl, rfl⟩

@[simp] theorem driveSameOutputs_badOperand (x : OperandName) (v : Word) :
    DriveSameOutputs s s' (raiseBadOperand x v s) (raiseBadOperand x v s') :=
  ⟨_, rfl, rfl⟩

end

/-- The bytes read of PAYIN are those below the count. -/
theorem payinBytes_congr {p q : Inputs} {n : Nat} (h : ∀ k < n, p.payin[k]? = q.payin[k]?) :
    payinBytes p n = payinBytes q n := by
  apply List.ext_getElem?
  intro k
  simp only [payinBytes, memRead_getElem?, Nat.zero_add, Vector.getElem?_toList]
  split_ifs with hk
  · exact h k hk
  · rfl

/-- Every operation but FEEDB drives the same outputs wherever the inputs it reads are the same, whatever the state. -/
theorem exec_driveSameOutputs {i : Instr} {s s' : State} (hi : i ≠ .feedb) (h : sameInputsRead i s.port s'.port) :
    DriveSameOutputs s s' (exec i s) (exec i s') := by
  cases i with
  | feedb => exact absurd rfl hi
  | build =>
    have hopa : s.port.opa = s'.port.opa := h
    simp only [exec, execBuild, hopa]
    split_ifs <;> simp
  | buildP len =>
    obtain ⟨hopa, hpayin⟩ : s.port.opa = s'.port.opa ∧ _ := h
    simp only [exec, execBuildP, hopa, payinBytes_congr hpayin]
    split_ifs <;> simp
  | extract w b e =>
    have hopa : s.port.opa = s'.port.opa := h
    simp only [exec, execExtract, hopa]
    split_ifs <;> simp
  | insert w b e =>
    obtain ⟨hopa, hopb⟩ : s.port.opa = s'.port.opa ∧ s.port.opb = s'.port.opb := h
    simp only [exec, execInsert, hopa, hopb]
    split_ifs <;> simp
  | ismod w b e =>
    obtain ⟨hopa, hopb⟩ : s.port.opa = s'.port.opa ∧ s.port.opb = s'.port.opb := h
    simp only [exec, execIsmod, hopa, hopb]
    split_ifs <;> simp
  | combine n =>
    simp only [exec, execCombine, payinBytes_congr h]
    split_ifs <;> simp
  | split n =>
    have hopa : s.port.opa = s'.port.opa := h
    simp only [exec, execSplit, hopa]
    split_ifs <;> simp

/-- The bytes received so far are the same where RXCNT and RXBUF below it are. -/
theorem partialFrame_congr {s s' : State} (hcnt : s.rxcnt = s'.rxcnt)
    (hbuf : ∀ k < s.rxcnt.val, s.rxbuf[k]? = s'.rxbuf[k]?) : s.partialFrame = s'.partialFrame := by
  apply List.ext_getElem?
  intro k
  simp only [State.partialFrame, memRead_getElem?, Nat.zero_add, Vector.getElem?_toList, ← hcnt]
  split_ifs with hk
  · exact hbuf k hk
  · rfl

/-- Equal bytes received give RXCNT and RXBUF below it. -/
theorem rxcnt_eq_of_partialFrame_eq {s s' : State} (h : s.partialFrame = s'.partialFrame) :
    s.rxcnt = s'.rxcnt ∧ ∀ k < s.rxcnt.val, s.rxbuf[k]? = s'.rxbuf[k]? := by
  have hcnt : s.rxcnt = s'.rxcnt := Fin.ext (by rw [← partialFrame_length, h, partialFrame_length])
  refine ⟨hcnt, fun k hk => ?_⟩
  rw [← partialFrame_getElem? hk, h, partialFrame_getElem? (hcnt ▸ hk)]

/-- Settles O19: an operation other than FEEDB depends on its inputs alone, a FEEDB on its byte and the partial frame. -/
theorem unreadInputsDoNotMatter : Obligations.UnreadInputsDoNotMatter := by
  intro i s s' hin hrx
  by_cases hi : i = .feedb
  · subst hi
    obtain ⟨hcnt, hbuf⟩ := hrx rfl
    have hopa : s.port.opa = s'.port.opa := hin
    have hpartial := partialFrame_congr hcnt hbuf
    by_cases ha : s.port.opa.toNat < 2 ^ 8
    · obtain ⟨hev, hend⟩ := receiveByte_congr (lowByte s.port.opa) hpartial
      refine ⟨_, _, exec_feedb_byte ha, exec_feedb_byte (hopa ▸ ha), ?_, fun _ => ?_⟩ <;> rw [← hopa]
      · rw [State.setOut_out, State.setOut_out, hev]
      · exact rxcnt_eq_of_partialFrame_eq hend
    · refine ⟨_, _, exec_feedb_rejected ha, exec_feedb_rejected (hopa ▸ ha), ?_, fun _ => hrx rfl⟩
      rw [State.setOut_out, State.setOut_out, hopa]
  · obtain ⟨o, ho, ho'⟩ := exec_driveSameOutputs hi hin
    exact ⟨_, _, ho, ho', rfl, fun h => absurd h hi⟩

/-! ## Operations other than FEEDB commute (R50) -/

theorem sameInputsRead_refl (i : Instr) (p : Inputs) : sameInputsRead i p p := by
  cases i <;> simp [sameInputsRead]

/-- An operation that is no accepted FEEDB has outputs of its own: it drives them in every state, and nothing else. -/
theorem step_otherOperation_output {p : Inputs} (hp : ¬ (decode p.cmd = .op .feedb ∧ p.opa.toNat < 2 ^ 8)) :
    ∃ o, ∀ (s : State) (rest : List Stimulus), s.pending = .operation p :: rest →
      step s = .next ((s.present p rest).setOut o) := by
  cases hd : decode p.cmd with
  | illegal => exact ⟨_, fun s rest hq => step_illegal hq hd⟩
  | op i =>
    by_cases hi : i = .feedb
    · subst hi
      exact ⟨.badOperand .a p.opa, fun s rest hq =>
        (step_operation hq hd).trans (exec_feedb_rejected (s := s.present p rest) fun ha => hp ⟨hd, ha⟩)⟩
    · obtain ⟨o, ho⟩ := exec_eq_setOut i (State.reset.present p []) hi
      refine ⟨o, fun s rest hq => (step_operation hq hd).trans ?_⟩
      obtain ⟨o', hreset, hs⟩ := exec_driveSameOutputs (s := State.reset.present p []) (s' := s.present p rest) hi
        (sameInputsRead_refl i p)
      cases ho.symm.trans hreset
      exact hs

/-- A received byte's event and the receive state after it depend on the receive state alone. -/
theorem receiveByte_congr_receiveState (b : Byte) {s s' : State} (hbuf : s.rxbuf = s'.rxbuf) (hcnt : s.rxcnt = s'.rxcnt) :
    (receiveByte b s).2 = (receiveByte b s').2 ∧ (receiveByte b s).1.rxbuf = (receiveByte b s').1.rxbuf ∧
      (receiveByte b s).1.rxcnt = (receiveByte b s').1.rxcnt := by
  unfold receiveByte State.storeByte
  simp only [hbuf, hcnt]
  split_ifs
  · exact ⟨rfl, rfl, rfl⟩
  · exact ⟨rfl, hbuf, rfl⟩

/-- An operation has the same outputs, and leaves the same receive state, from two states with the same receive state. -/
theorem step_operation_congr {s s' : State} {q : Inputs} {rest rest' : List Stimulus}
    (hq : s.pending = .operation q :: rest) (hq' : s'.pending = .operation q :: rest')
    (hbuf : s.rxbuf = s'.rxbuf) (hcnt : s.rxcnt = s'.rxcnt) :
    ∃ t t' o, step s = .next t ∧ step s' = .next t' ∧ t.out = some o ∧ t'.out = some o ∧
      t.rxbuf = t'.rxbuf ∧ t.rxcnt = t'.rxcnt ∧ t.pending = rest ∧ t'.pending = rest' := by
  by_cases hfeed : decode q.cmd = .op .feedb ∧ q.opa.toNat < 2 ^ 8
  · obtain ⟨hd, ha⟩ := hfeed
    obtain ⟨hev, hbuf', hcnt'⟩ := receiveByte_congr_receiveState (lowByte q.opa) (s := s.present q rest)
      (s' := s'.present q rest') hbuf hcnt
    exact ⟨_, _, _, step_acceptedFeed hq hd ha, step_acceptedFeed hq' hd ha, rfl, by rw [State.setOut_out, hev],
      hbuf', hcnt', by simp, by simp⟩
  · obtain ⟨o, ho⟩ := step_otherOperation_output hfeed
    exact ⟨_, _, o, ho s rest hq, ho s' rest' hq', rfl, rfl, hbuf, hcnt, rfl, rfl⟩

/-- Two steps with their outputs. -/
theorem observe_two {s t u : State} {o o' : Output} (hs : step s = .next t) (ht : step t = .next u)
    (ho : t.out = some o) (ho' : u.out = some o') : observe 2 s = .next (u, [o, o']) := by
  rw [observe_succ hs (observe_succ ht (observe_zero u)), ho, ho']
  rfl

/-- Settles O20: `p` drives its own outputs wherever it stands, so `q` runs in both orders from the same receive state. -/
theorem operationsCommute : Obligations.OperationsCommute := by
  intro s p q rest hp
  obtain ⟨op, hop⟩ := step_otherOperation_output fun h => hp h.1
  have hfirst := hop (s.dequeue (.operation p :: .operation q :: rest)) _ rfl
  obtain ⟨t, u, oq, ht, hu, hout, hout', hbuf, hcnt, -, hpend⟩ := step_operation_congr
    (s := (s.present p (.operation q :: rest)).setOut op) (s' := s.dequeue (.operation q :: .operation p :: rest))
    rfl rfl rfl rfl
  exact ⟨t, _, op, oq, observe_two hfirst ht rfl hout, observe_two hu (hop u rest hpend) hout' rfl, hbuf, hcnt⟩

end Sys2Proof.Machine
end

section
/-! PROOFS. Result and frame of the bit-field operations (R102 to R104), the packer (R121, R122) and FEEDB within a frame
(R141), and the two frames without content: BUILD.P with LEN = 0 (R172) and the stream of 64 zero bytes (R154). -/

namespace Sys2Proof.Machine

/-! ## Bit-field operations -/

/-- Settles O25: EXTRACT completes with the extracted word. -/
theorem extractReadsField : Obligations.ExtractReadsField := by
  intro w s e st hf hv
  refine ⟨_, exec_extract hf hv, fun k _ => ?_⟩
  rw [extracted_getLsbD, decide_eq_decide.2 Nat.lt_succ_iff]

/-- Settles O26: INSERT completes with the inserted word. -/
theorem insertWritesField : Obligations.InsertWritesField := by
  intro w s e st hf hv
  exact ⟨_, exec_insert hf hv, fun k _ => inserted_getLsbD hf hv _ k⟩

/-- Two words have the same extracted word exactly when they agree on every bit of the field. -/
theorem extracted_eq_iff {s e : BitIndex} (hse : s.val ≤ e.val) (v r : Word) :
    extracted s e v = extracted s e r ↔ ∀ k, s.val ≤ k → k ≤ e.val → v.getLsbD k = r.getLsbD k := by
  constructor
  · intro h k hs he
    have hbit := congrArg (BitVec.getLsbD · (k - s.val)) h
    simp only [extracted_getLsbD, Nat.add_sub_cancel' hs] at hbit
    rwa [decide_eq_true (by omega), Bool.true_and, Bool.true_and] at hbit
  · intro h
    apply BitVec.eq_of_getLsbD_eq
    intro k _
    rw [extracted_getLsbD, extracted_getLsbD]
    by_cases hk : k < e.val - s.val + 1
    · rw [h (s.val + k) (by omega) (by omega)]
    · rw [decide_eq_false hk, Bool.false_and, Bool.false_and]

/-- Settles O27: ISMOD compares the extracted words, and those are equal where every bit of the field is. -/
theorem ismodComparesField : Obligations.IsmodComparesField := by
  intro w s e st hf hbyte
  obtain ⟨hse, -⟩ := (fieldOk_iff w s e).1 hf
  refine ⟨_, exec_ismod hf (fun hw => (hbyte hw).1) (fun hw => (hbyte hw).2), ?_, fun hsame => ?_⟩
  · rintro ⟨k, hs, he, hk⟩
    exact if_pos fun h => hk ((extracted_eq_iff hse _ _).1 h k hs he)
  · exact if_neg (not_not.2 ((extracted_eq_iff hse _ _).2 hsame))

/-! ## Packer operations -/

/-- The little-endian value is the sum of the bytes at their weights (R44). -/
theorem combineBytes_eq_sum (bs : List Byte) :
    combineBytes bs = ((List.range bs.length).map fun i => (bs.getD i 0).toNat * 2 ^ (8 * i)).sum := by
  induction bs with
  | nil => rfl
  | cons b bs ih =>
    have hshift (i : Nat) : 2 ^ 8 * ((bs.getD i 0).toNat * 2 ^ (8 * i)) =
        ((b :: bs).getD (i + 1) 0).toNat * 2 ^ (8 * (i + 1)) := by
      rw [List.getD_cons_succ, Nat.mul_succ, Nat.add_comm (8 * i), Nat.pow_add, Nat.mul_left_comm]
    rw [combineBytes_cons, ih, ← List.sum_map_mul_left, List.length_cons, List.range_succ_eq_map, List.map_cons,
      List.map_map, List.sum_cons, List.getD_cons_zero, Nat.mul_zero, Nat.pow_zero, Nat.mul_one]
    simp only [hshift]
    rfl

theorem payinBytes_getD (inp : Inputs) {n i : Nat} (hi : i < n) :
    (payinBytes inp n).getD i 0 = inp.payin.toList.getD i 0 := by
  simp only [List.getD, payinBytes, memRead_getElem?, if_pos hi, Nat.zero_add]

/-- Settles O30: COMBINE completes with the value of the bytes it reads, which a word holds. -/
theorem combinePacksBytes : Obligations.CombinePacksBytes := by
  intro n st hn
  have hlen : (payinBytes st.port n.val).length = n.val := payinBytes_length _ (by omega)
  refine ⟨_, exec_combine hn st, ?_, ?_⟩ <;> rw [ofNat_combineBytes_toNat (by omega)]
  · rw [combineBytes_eq_sum, hlen]
    refine congrArg List.sum (List.map_congr_left fun i hi => ?_)
    rw [payinBytes_getD _ (List.mem_range.1 hi)]
  · simpa only [hlen] using combineBytes_lt (payinBytes st.port n.val)

/-- Settles O31: SPLIT completes with the low bytes of OPA. -/
theorem splitUnpacksBytes : Obligations.SplitUnpacksBytes := by
  intro n st hn
  exact ⟨_, exec_split hn st, splitBytes_length _ _, fun i hi => splitBytes_getElem? _ _ i hi⟩

/-! ## FEEDB within a frame (R141) -/

theorem receiveByte_of_lt {s : State} (b : Byte) (h : s.rxcnt.val < 63) :
    receiveByte b s = (s.storeByte b h, .noEvent) :=
  dif_pos h

/-- Settles O38: the byte is stored and counted, and the event is NONE. -/
theorem feedbStoresByte : Obligations.FeedbStoresByte := by
  intro s ha hlt
  refine ⟨(s.storeByte (lowByte s.port.opa) hlt).setOut (.event .noEvent), ?_, rfl, fun k => ?_, rfl, rfl, rfl, rfl⟩
  · rw [exec_feedb_byte ha, receiveByte_of_lt _ hlt]
  · rw [State.setOut_rxbuf, State.storeByte_rxbuf, Vector.getElem?_set, if_congr eq_comm rfl rfl, lowByte]

/-! ## Frames without content -/

/-- Settles O34: the payload read is empty, and a frame with an empty payload is one without a payload. -/
theorem emptyPayloadIsNoPayload : Obligations.EmptyPayloadIsNoPayload := by
  intro st
  simp only [exec, execBuildP, execBuild, buildFrame_none_eq]
  rfl

/-- 64 zero bytes are the frame built of tag 0 without a payload. -/
theorem buildFrame_zero_toList : (buildFrame 0 (some [])).toList = List.replicate 64 0 := by
  rw [← buildFrame_none_eq, buildFrame_none_toList]
  rfl

/-- Settles O46: the zero bytes are a built frame, which is delivered. -/
theorem zeroFrameDelivered : Obligations.ZeroFrameDelivered := by
  intro s q rest h0 hf hq
  rw [← buildFrame_zero_toList] at hf
  obtain ⟨t, os, hobs, hcnt, -, hev⟩ := (endsCandidate_of_feeds_buildFrame (by decide) h0 hf hq).exists_events nofun
  exact ⟨t, os, hobs, hcnt, hev⟩

end Sys2Proof.Machine
end
